-- ==== Sys2Proof/Word.lean ====
section
/-! DEFINITION. The block's word types (00_scope.md R9: every value is an unsigned integer). -/

namespace Sys2Proof

/-- A command word `CMD[7:0]` (30_encoding.md R61) or a byte given to the CRC unit (R64). -/
abbrev Byte := BitVec 8

/-- The CRC unit's word: the accumulator (10_state.md R30) and the result (20_memory.md R48). -/
abbrev Word16 := BitVec 16

/-- The status word (10_state.md R29). -/
abbrev Word32 := BitVec 32

/-- One element of a ring buffer: the number its `ELEM_BITS` bits make. The buffer never looks
inside an element (20_memory.md R42) and its width differs from instance to instance, so an element
is a number; that it is below `2 ^ ELEM_BITS` is checked where it enters and kept as an invariant
(log 14). -/
abbrev Item := Nat

end Sys2Proof
end

