-- ==== Sys2Proof/Config.lean ====
section
/-! DEFINITION. The parameters of the block (00_scope.md R5, R6, R8) and its open parameters. -/

namespace Sys2Proof

/-- The parameters of one ring buffer instance (00_scope.md R5), with the number of agents wired to
its two ports (20_memory.md R56, R58). No command changes any of them (10_state.md R35). -/
structure RingConfig where
  /-- `CAP`, the number of slots. -/
  cap : Nat
  /-- `ELEM_BITS`, the width of one element. -/
  elemBits : Nat
  /-- How many producer agents issue commands on `P_PROD`. -/
  producers : Nat
  /-- How many consumer agents issue commands on `P_CONS`. -/
  consumers : Nat
  deriving DecidableEq, Repr

/-- The ring buffer instances of a block; the CRC unit has no parameters (R7). -/
abbrev Config := List RingConfig

/-- OPEN parameter `ELEM_BITS_RECORD` (R5, 93_implementation_defined.md I4): any width. Log 3. -/
opaque Config.elemBitsRecord : Nat

/-- OPEN parameter `RBCRC_BASE` (20_memory.md R41, 93_implementation_defined.md I6): where the block
lies in a processor's address space, if anywhere. No rule and no definition of the model depends on
it. Log 3. -/
opaque Config.rbcrcBase : Option Nat

/-- The instance `RB_BYTE` of R6: 256 raw bytes. -/
def Config.rbByte : RingConfig := { cap := 256, elemBits := 8, producers := 1, consumers := 1 }

/-- The instance `RB_BUS` of R6: 32 message records of the open width. -/
def Config.rbBus : RingConfig :=
  { cap := 32, elemBits := Config.elemBitsRecord, producers := 1, consumers := 1 }

/-- The source's two standard instances (R6), `RB_BYTE` as instance 0 and `RB_BUS` as instance 1
(DESIGN CHOICE, log 2). The capacities are defaults (R6), so statements range over every `Config`. -/
def Config.standard : Config := [Config.rbByte, Config.rbBus]

end Sys2Proof
end

