-- ==== Sys2Proof/Syntax.lean ====
section
/-! DEFINITION. Ports, requests, the seven commands and the two faults, as syntax. -/

namespace Sys2Proof

/-- A port of the block (30_encoding.md R60). `prod k` and `cons k` belong to ring buffer
instance `k`. -/
inductive Port where
  | prod (k : Nat)
  | cons (k : Nat)
  | crc
  deriving DecidableEq, Repr

/-- Two ports belong to one unit: the same instance, or both to the CRC unit (30_encoding.md R60). -/
def Port.sameUnit : Port → Port → Bool
  | .prod j, .prod k => decide (j = k)
  | .prod j, .cons k => decide (j = k)
  | .cons j, .prod k => decide (j = k)
  | .cons j, .cons k => decide (j = k)
  | .crc, .crc => true
  | .prod _, .crc => false
  | .cons _, .crc => false
  | .crc, .prod _ => false
  | .crc, .cons _ => false

/-- What an agent presents on a port: the request fields of the table in R60. `P_CONS` has no
`DATA` lines. -/
inductive Request where
  | prod (k : Nat) (cmd : Byte) (data : Item)
  | cons (k : Nat) (cmd : Byte)
  | crc (cmd : Byte) (data : Byte)
  deriving DecidableEq, Repr

/-- The port a request stands on. -/
def Request.port : Request → Port
  | .prod k _ _ => .prod k
  | .cons k _ => .cons k
  | .crc _ _ => .crc

/-- The command word of a request (R61). -/
def Request.cmd : Request → Byte
  | .prod _ c _ => c
  | .cons _ c => c
  | .crc c _ => c

/-- The seven names of the opcode map (R62). -/
inductive Mnemonic where
  | rbInit | rbPush | rbPop | rbStatus | crcInit | crcUpdate | crcFinal
  deriving DecidableEq, Repr

/-- A command as it is executed, one constructor per row of spec/opcode_table.json, with its operand
(R64) and the instance it addresses. A command word names no instance: the instance is the one whose
port the command arrives on (R60), as in the assembly syntax `RB_BYTE.PUSH 0x11` (R70). Log 15. -/
inductive Instr where
  | rbInit (k : Nat)
  | rbPush (k : Nat) (x : Item)
  | rbPop (k : Nat)
  | rbStatus (k : Nat)
  | crcInit
  | crcUpdate (b : Byte)
  | crcFinal
  deriving DecidableEq, Repr

/-- The port a command is legal on, which its mnemonic implies (R62, R66, R70). -/
def Instr.port : Instr → Port
  | .rbInit k => .cons k
  | .rbPush k _ => .prod k
  | .rbPop k => .cons k
  | .rbStatus k => .cons k
  | .crcInit => .crc
  | .crcUpdate _ => .crc
  | .crcFinal => .crc

/-- The two faults the block raises (60_exceptions.md R121). They are reported, never fatal (R123):
in the model they are a next state, not a stop. -/
inductive FaultCode where
  /-- The command word is not one of the seven of 30_encoding.md R62. -/
  | illegalCommand
  /-- The command word is legal but arrived on a port where it is not legal. -/
  | wrongPort
  deriving DecidableEq, Repr

end Sys2Proof
end

