-- ==== Sys2Proof/WellFormed.lean ====
section
/-! DEFINITION. Which configurations the spec accepts, and which requests and commands can exist in
one. -/

namespace Sys2Proof

/-- An instance's parameters are accepted: `1 <= CAP <= 2^30 - 1` (00_scope.md R5, 92_eei_decisions.md
D17) and exactly one producer and one consumer (20_memory.md R56, R58). -/
def RingConfig.accepted (c : RingConfig) : Bool :=
  decide (1 ≤ c.cap) && decide (c.cap ≤ 2 ^ 30 - 1) && decide (c.producers = 1)
    && decide (c.consumers = 1)

/-- A block has one or more ring buffer instances (00_scope.md R8), each accepted. -/
def Config.accepted (cs : Config) : Bool :=
  !cs.isEmpty && cs.all RingConfig.accepted

/-- The port exists in the block: each instance has its own two ports, the CRC unit has one
(30_encoding.md R60). -/
def Config.hasPort (cs : Config) : Port → Bool
  | .prod k => decide (k < cs.length)
  | .cons k => decide (k < cs.length)
  | .crc => true

/-- A value fits in the `ELEM_BITS` lines of `P_PROD.DATA` of instance `k` (R60, R64). -/
def Config.fits (cs : Config) (k : Nat) (x : Item) : Bool :=
  match cs[k]? with
  | some c => decide (x < 2 ^ c.elemBits)
  | none => false

/-- A request that can stand on a port of the block: its port exists and its `DATA` fits the port's
lines (R60). -/
def Request.wellFormed (cs : Config) : Request → Bool
  | .prod k _ x => cs.fits k x
  | .cons k _ => cs.hasPort (.cons k)
  | .crc _ _ => true

/-- A command that can be issued to the block: its instance exists and the operand of `RB.PUSH` fits
in `ELEM_BITS` bits (R64, R70). -/
def Instr.wellFormed (cs : Config) : Instr → Bool
  | .rbInit k => cs.hasPort (.cons k)
  | .rbPush k x => cs.fits k x
  | .rbPop k => cs.hasPort (.cons k)
  | .rbStatus k => cs.hasPort (.cons k)
  | .crcInit => true
  | .crcUpdate _ => true
  | .crcFinal => true

end Sys2Proof
end

