-- ==== Sys2Proof/Decode.lean ====
section
/-! DEFINITION. The decoder of 30_encoding.md R69, total on every word on every port, and after it the
encoder. -/

namespace Sys2Proof

/-- `UNIT`, bits 7:6 of a command word (R61). -/
def unitField (cmd : Byte) : BitVec 2 := cmd.extractLsb' 6 2

/-- `RES`, bits 5:2 of a command word (R61). -/
def resField (cmd : Byte) : BitVec 4 := cmd.extractLsb' 2 4

/-- `OP`, bits 1:0 of a command word (R61). -/
def opField (cmd : Byte) : BitVec 2 := cmd.extractLsb' 0 2

/-- `MNEMONIC[unit, op]` of R69, the map of R62; no entry where `UNIT` is reserved or `CRC` has no
such operation. -/
def mnemonicAt (unit op : BitVec 2) : Option Mnemonic :=
  if unit = 0b00#2 then
    if op = 0b00#2 then some .rbInit
    else if op = 0b01#2 then some .rbPush
    else if op = 0b10#2 then some .rbPop
    else some .rbStatus
  else if unit = 0b01#2 then
    if op = 0b00#2 then some .crcInit
    else if op = 0b01#2 then some .crcUpdate
    else if op = 0b10#2 then some .crcFinal
    else none
  else none

/-- The first lines of R69: the mnemonic of a word, or ILLEGAL_COMMAND, whatever the port. `RES` is
looked at first, then `UNIT`, then `OP`. -/
def mnemonicOf (cmd : Byte) : Except FaultCode Mnemonic :=
  if resField cmd ≠ 0b0000#4 then .error .illegalCommand
  else
    match mnemonicAt (unitField cmd) (opField cmd) with
    | some m => .ok m
    | none => .error .illegalCommand

/-- `decode(p, cmd)` of R69 with the operand of R64: the word's mnemonic, then the check that the port
is legal for it (R66). A command without an operand ignores its port's `DATA`. -/
def decode (r : Request) : Except FaultCode Instr :=
  match mnemonicOf r.cmd with
  | .error e => .error e
  | .ok .rbInit =>
    match r with
    | .prod _ _ _ => .error .wrongPort
    | .cons k _ => .ok (.rbInit k)
    | .crc _ _ => .error .wrongPort
  | .ok .rbPush =>
    match r with
    | .prod k _ x => .ok (.rbPush k x)
    | .cons _ _ => .error .wrongPort
    | .crc _ _ => .error .wrongPort
  | .ok .rbPop =>
    match r with
    | .prod _ _ _ => .error .wrongPort
    | .cons k _ => .ok (.rbPop k)
    | .crc _ _ => .error .wrongPort
  | .ok .rbStatus =>
    match r with
    | .prod _ _ _ => .error .wrongPort
    | .cons k _ => .ok (.rbStatus k)
    | .crc _ _ => .error .wrongPort
  | .ok .crcInit =>
    match r with
    | .prod _ _ _ => .error .wrongPort
    | .cons _ _ => .error .wrongPort
    | .crc _ _ => .ok .crcInit
  | .ok .crcUpdate =>
    match r with
    | .prod _ _ _ => .error .wrongPort
    | .cons _ _ => .error .wrongPort
    | .crc _ b => .ok (.crcUpdate b)
  | .ok .crcFinal =>
    match r with
    | .prod _ _ _ => .error .wrongPort
    | .cons _ _ => .error .wrongPort
    | .crc _ _ => .ok .crcFinal

/-- A command word put together from its three fields (R61). -/
def wordOf (unit : BitVec 2) (op : BitVec 2) : Byte := (unit ++ 0b0000#4) ++ op

/-- The command word of a command (the `CMD` column of R62). -/
def Instr.word : Instr → Byte
  | .rbInit _ => wordOf 0b00#2 0b00#2
  | .rbPush _ _ => wordOf 0b00#2 0b01#2
  | .rbPop _ => wordOf 0b00#2 0b10#2
  | .rbStatus _ => wordOf 0b00#2 0b11#2
  | .crcInit => wordOf 0b01#2 0b00#2
  | .crcUpdate _ => wordOf 0b01#2 0b01#2
  | .crcFinal => wordOf 0b01#2 0b10#2

/-- The request that issues a command: its word on its legal port, with its operand on `DATA` (R62,
R64). The `DATA` lines a command ignores are driven 0 (DESIGN CHOICE, log 15). -/
def encode (i : Instr) : Request :=
  match i with
  | .rbInit k => .cons k i.word
  | .rbPush k x => .prod k i.word x
  | .rbPop k => .cons k i.word
  | .rbStatus k => .cons k i.word
  | .crcInit => .crc i.word 0x00#8
  | .crcUpdate b => .crc i.word b
  | .crcFinal => .crc i.word 0x00#8

/-- The code a fault reports in `RSP_DATA[7:0]` (60_exceptions.md R121). -/
def FaultCode.code : FaultCode → Byte
  | .illegalCommand => 0x01#8
  | .wrongPort => 0x02#8

/-- The request that a number stands for, read as spec/opcode_table.json numbers bits: `CMD` in bits
7:0 and, above it, `DATA`. It stands on the port the word is legal on, of instance 0; a word that is
legal nowhere stands on `P_CRC` (DESIGN CHOICE, log 15). -/
def requestOfTableWord (w : Nat) : Request :=
  match mnemonicOf (BitVec.ofNat 8 w) with
  | .ok .rbInit => .cons 0 (BitVec.ofNat 8 w)
  | .ok .rbPush => .prod 0 (BitVec.ofNat 8 w) (w / 256)
  | .ok .rbPop => .cons 0 (BitVec.ofNat 8 w)
  | .ok .rbStatus => .cons 0 (BitVec.ofNat 8 w)
  | .ok .crcInit => .crc (BitVec.ofNat 8 w) (BitVec.ofNat 8 (w / 256))
  | .ok .crcUpdate => .crc (BitVec.ofNat 8 w) (BitVec.ofNat 8 (w / 256))
  | .ok .crcFinal => .crc (BitVec.ofNat 8 w) (BitVec.ofNat 8 (w / 256))
  | .error _ => .crc (BitVec.ofNat 8 w) (BitVec.ofNat 8 (w / 256))

/-- The command the decoder reads from the low `nbits` bits of `w`, every higher bit being 0. -/
def decodeTableWord (nbits w : Nat) : Option Instr :=
  match decode (requestOfTableWord (w % 2 ^ nbits)) with
  | .ok i => some i
  | .error _ => none

end Sys2Proof
end

