-- ==== Sys2Proof/Machine/State.lean ====
section
/-! DEFINITION. Everything the spec gives the block, as plain data, and its reset value. -/

namespace Sys2Proof.Machine

/-- The four pieces of state of a ring buffer instance (10_state.md R20). -/
structure RingBuf where
  /-- `buf[0..CAP-1]`, slot 0 first (R24). -/
  buf : List Item
  /-- `head`, the next write slot (R21). -/
  head : Nat
  /-- `tail`, the next read slot (R22). -/
  tail : Nat
  /-- `full` (R23). -/
  full : Bool
  deriving DecidableEq, Repr

/-- A ring buffer instance: its parameters, which no command changes (R35, log 1), and its state. -/
structure RingUnit where
  cfg : RingConfig
  ring : RingBuf
  deriving DecidableEq, Repr

/-- What a response carries (30_encoding.md R65). -/
inductive Response where
  /-- `ACK` without a value: `RB.INIT`, an accepted `RB.PUSH`, `CRC.INIT`, `CRC.UPDATE`. -/
  | ack
  /-- `ACK` of `RB.POP` with the item. -/
  | item (x : Item)
  /-- `ACK` of `RB.STATUS` with the status word. -/
  | status (w : Word32)
  /-- `ACK` of `CRC.FINAL` with the CRC result. -/
  | crc (r : Word16)
  /-- `NONE`: a push that dropped its item, or a pop that found the buffer empty. -/
  | noItem
  /-- `FAULT` with its code. -/
  | fault (c : FaultCode)
  deriving DecidableEq, Repr

/-- One record of the fault log: code, full command word, port, no operand (60_exceptions.md R122). -/
structure FaultRecord where
  code : FaultCode
  cmd : Byte
  port : Port
  deriving DecidableEq, Repr

/-- A response and the port it was given on: the port that issued the command (00_scope.md R12). -/
structure PortResponse where
  port : Port
  rsp : Response
  deriving DecidableEq, Repr

/-- The block and its ports. -/
structure State where
  /-- The ring buffer instances (00_scope.md R8). -/
  units : List RingUnit
  /-- The CRC unit's accumulator (10_state.md R30). -/
  acc : Word16
  /-- The fault log, oldest record first (10_state.md R36). -/
  faultLog : List FaultRecord
  /-- The responses of the run so far, in order (70_reset_and_hazards.md R149). -/
  responses : List PortResponse
  /-- The commands held on the ports, not yet answered, in the order in which the block takes them.
  A port holds at most one (20_memory.md R57). The order is the choice R50 leaves to the block; it
  is data of the model, and statements hold for every order (log 5). -/
  held : List Request
  /-- What the agents present later: one inner list per coming step, ordered as the block orders
  commands that arrive together (R50). Data of the model (log 5). -/
  arrivals : List (List Request)
  deriving DecidableEq, Repr

/-- Why the machine stops. No fault of the hardware is one of these: an illegal or misrouted command
is answered and logged, and the block goes on (60_exceptions.md R123). -/
inductive Fault where
  /-- Raised by `RB.PUSH` and `RB.POP` when `head` or `tail` names no slot of `buf`. There are only
  the slots `0 .. CAP-1` (10_state.md R24); no state of a run has such an index. Safe (log 11). -/
  | noSuchSlot
  deriving DecidableEq, Repr

/-- Why the model gives a command no meaning. -/
inductive Refusal where
  /-- Raised by `exec` for an instruction without a meaning yet; no arm does. Safe. -/
  | notModelled (mnemonic : String)
  /-- Raised by `step`, and by the ring buffer commands for their own instance, when the parameters
  are not accepted: `CAP` out of range (92_eei_decisions.md D17: refused at configuration), not
  exactly one producer and one consumer (20_memory.md R58: a model refuses such a configuration), or
  no instance at all (00_scope.md R8). Safe (log 9). -/
  | configuration
  /-- Raised by `step` and by the ring buffer commands when the request names a port of an instance
  the block does not have. Safe (log 13). -/
  | noSuchInstance
  /-- Raised by `RB.PUSH` when its operand needs more than `ELEM_BITS` bits: the port has no such
  lines (30_encoding.md R64) and an assembler refuses the literal (R70). Safe (log 10). -/
  | operandTooWide
  deriving DecidableEq, Repr

/-- The parameters of a state's instances. -/
def State.config (s : State) : Config := s.units.map RingUnit.cfg

/-- An instance after reset (70_reset_and_hazards.md R140). The slots are unspecified there; the model
names 0 for each (DESIGN CHOICE, log 4). -/
def RingBuf.reset (c : RingConfig) : RingBuf :=
  { buf := List.replicate c.cap 0, head := 0, tail := 0, full := false }

/-- The block of a configuration right after reset (R140): every instance empty, `acc` = 0xFFFF, fault
log empty, no command answered, and no command presented (log 7). -/
def State.resetOf (cs : Config) : State :=
  { units := cs.map (fun c => { cfg := c, ring := RingBuf.reset c })
    acc := 0xFFFF#16
    faultLog := []
    responses := []
    held := []
    arrivals := [] }

/-- The machine right after reset, in the source's two standard instances (00_scope.md R6, log 2). -/
def State.reset : State := State.resetOf Config.standard

end Sys2Proof.Machine
end

