-- ==== Sys2Proof/Machine/Ops.lean ====
section
/-! DEFINITION. The operations the meanings share: index arithmetic, slots, access to an instance,
responding, and raising a fault. -/

namespace Sys2Proof.Machine

/-- `inc(i) = (i + 1) mod CAP`, the only arithmetic on `head` and `tail` (40_ring_buffer.md R84). -/
def inc (c : RingConfig) (i : Nat) : Nat := (i + 1) % c.cap

/-- `IW = max(1, ceil(log2 CAP))`, the width of the index registers (10_state.md R21). -/
def indexWidth (c : RingConfig) : Nat := max 1 (Nat.clog 2 c.cap)

/-- `buf[i]` (00_scope.md R11); none where there is no slot `i`. -/
def RingBuf.slot (r : RingBuf) (i : Nat) : Option Item := r.buf[i]?

/-- `buf[i] <- x` (R11); none where there is no slot `i`. -/
def RingBuf.setSlot (r : RingBuf) (i : Nat) (x : Item) : Option RingBuf :=
  match r.buf[i]? with
  | none => none
  | some _ => some { r with buf := r.buf.set i x }

/-- The state with the ring of instance `k` replaced; its parameters and the other instances stay
(10_state.md R34, R35). -/
def State.setRing (s : State) (k : Nat) (r : RingBuf) : State :=
  { s with units := s.units.modify k (fun u => { u with ring := r }) }

/-- `respond v` on port `p` (00_scope.md R12): one more response of the run. -/
def State.respond (s : State) (p : Port) (v : Response) : State :=
  { s with responses := s.responses ++ [{ port := p, rsp := v }] }

/-- TAKING A FAULT, `raise <Fault>(cmd, p)` (00_scope.md R12; 60_exceptions.md R122, R123): no unit
state changes, one record is appended to the fault log, and the port is answered `FAULT` with the
code. Nothing is saved and control goes nowhere (R129); there is no return (R130). -/
def State.raise (s : State) (c : FaultCode) (cmd : Byte) (p : Port) : State :=
  State.respond { s with faultLog := s.faultLog ++ [{ code := c, cmd := cmd, port := p }] } p (.fault c)

/-- What a ring buffer command does to its instance: the new ring and the response. -/
abbrev RingResult := Host.Outcome (RingBuf × Response) Fault Refusal

/-- Execute a ring buffer command on instance `k`, atomically (20_memory.md R46), and respond on port
`p`. Only that instance is read or written (10_state.md R34). -/
def onRing (k : Nat) (p : Port) (f : RingConfig → RingBuf → RingResult) (s : State) :
    Host.Outcome State Fault Refusal :=
  match s.units[k]? with
  | none => .refused .noSuchInstance
  | some u =>
    if u.cfg.accepted then
      match f u.cfg u.ring with
      | .next (r, v) => .next ((s.setRing k r).respond p v)
      | .fault e => .fault e
      | .refused e => .refused e
    else .refused .configuration

/-- Execute a command of the CRC unit: `acc` becomes `a`, and the client is answered `v` on `P_CRC`.
The CRC unit has no error result (60_exceptions.md R120). -/
def onCrc (a : Word16) (v : Response) (s : State) : Host.Outcome State Fault Refusal :=
  .next (State.respond { s with acc := a } .crc v)

/-- `swap16(v) = {v[7:0], v[15:8]}` (00_scope.md R10). -/
def swap16 (v : Word16) : Word16 := v.extractLsb' 0 8 ++ v.extractLsb' 8 8

/-- `POLY` (41_crc16.md R100). -/
def poly : Word16 := 0x8408#16

/-- `CRC_INIT` (R100). -/
def crcStart : Word16 := 0xFFFF#16

/-- One iteration of `crc_step` (R101): the low bit is tested before the logical shift (R108). -/
def crcShift (a : Word16) : Word16 :=
  if a.getLsbD 0 then (a >>> 1) ^^^ poly else a >>> 1

/-- `repeat n times` the iteration. -/
def crcShifts : Nat → Word16 → Word16
  | 0, a => a
  | n + 1, a => crcShifts n (crcShift a)

/-- `crc_step(a, b)` (R101). -/
def crcStep (a : Word16) (b : Byte) : Word16 := crcShifts 8 (a ^^^ b.setWidth 16)

/-- `crc_final(a)` (R102). -/
def crcFinal (a : Word16) : Word16 := swap16 (~~~a)

/-- `crc16(d0 .. d(n-1))` (R103). -/
def crc16 (ds : List Byte) : Word16 := crcFinal (ds.foldl crcStep crcStart)

end Sys2Proof.Machine
end

