-- ==== Sys2Proof/Machine/Operands.lean ====
section
/-! DEFINITION. Operands taken from the ports and values put on them (30_encoding.md R60, R64, R65). -/

namespace Sys2Proof.Machine

/-- The operand of `RB.PUSH`: all of `P_PROD.DATA`, exactly `ELEM_BITS` lines, neither extended nor
truncated (R64). A wider value cannot stand on the port, and none results (log 10). -/
def pushOperand (c : RingConfig) (x : Item) : Option Item :=
  if x < 2 ^ c.elemBits then some x else none

/-- The operand of `CRC.UPDATE`: `P_CRC.DATA[7:0]`, exactly 8 bits (R64). -/
def updateOperand (b : Byte) : Byte := b

/-- `RSP_KIND[1:0]` (R65); 0b11 is never produced. -/
def Response.kind : Response → BitVec 2
  | .ack => 0b00#2
  | .item _ => 0b00#2
  | .status _ => 0b00#2
  | .crc _ => 0b00#2
  | .noItem => 0b01#2
  | .fault _ => 0b10#2

/-- The value of the lines `RSP_DATA[width-1:0]` of a response. Lines above `width` have no value. -/
structure Lines where
  width : Nat
  value : Nat
  deriving DecidableEq, Repr

/-- `W_CONS = max(ELEM_BITS, 32)`, the width of `P_CONS.RSP_DATA` (R60). -/
def consWidth (c : RingConfig) : Nat := max c.elemBits 32

/-- The `RSP_DATA` lines that have a value, on a port of an instance with parameters `c` (R65). Where
the table of R65 says unspecified there is no value (log 12). -/
def Response.data (c : RingConfig) : Response → Option Lines
  | .ack => none
  | .item x => some { width := consWidth c, value := x }
  | .status w => some { width := consWidth c, value := w.toNat }
  | .crc r => some { width := 16, value := r.toNat }
  | .noItem => none
  | .fault e => some { width := 8, value := e.code.toNat }

/-- The response of `RB.PUSH` as the source's Boolean (R65). -/
def Response.accepted : Response → Option Bool
  | .ack => some true
  | .item _ => none
  | .status _ => none
  | .crc _ => none
  | .noItem => some false
  | .fault _ => none

/-- The response of `RB.POP` as the source's optional item (R65); the outer `none` is a response that
`RB.POP` never gives. -/
def Response.popped : Response → Option (Option Item)
  | .ack => none
  | .item x => some (some x)
  | .status _ => none
  | .crc _ => none
  | .noItem => some none
  | .fault _ => none

end Sys2Proof.Machine
end

