-- ==== Sys2Proof/Machine/Crc.lean ====
section
/-! DEFINITION. The commands of the CRC unit (41_crc16.md R104 to R106). -/

namespace Sys2Proof.Machine

/-- `CRC.INIT` (R104): `acc <- 0xFFFF; respond ACK`. -/
def execCrcInit (s : State) : Host.Outcome State Fault Refusal :=
  onCrc crcStart .ack s

/-- `CRC.UPDATE b` (R105): `acc <- crc_step(acc, b); respond ACK`. -/
def execCrcUpdate (b : Byte) (s : State) : Host.Outcome State Fault Refusal :=
  onCrc (crcStep s.acc (updateOperand b)) .ack s

/-- `CRC.FINAL` (R106): respond with `crc_final(acc)`; `acc` is unchanged. -/
def execCrcFinal (s : State) : Host.Outcome State Fault Refusal :=
  onCrc s.acc (.crc (crcFinal s.acc)) s

end Sys2Proof.Machine
end

