-- ==== Sys2Proof/Machine/Flags.lean ====
section
/-! DEFINITION. The `full` flag, and the functions of the state that `RB.STATUS` reports. -/

namespace Sys2Proof.Machine

/-- Empty exactly when `head = tail` and `full = 0` (10_state.md R26). -/
def RingBuf.isEmpty (r : RingBuf) : Bool := decide (r.head = r.tail) && !r.full

/-- `count = if full = 1 then CAP else (head - tail) mod CAP`, on unbounded integers with the
non-negative remainder (10_state.md R27, 00_scope.md R10). -/
def RingBuf.count (c : RingConfig) (r : RingBuf) : Nat :=
  if r.full then c.cap else (((r.head : Int) - (r.tail : Int)) % (c.cap : Int)).toNat

/-- The last line of `RB.PUSH` on `full`: `if head = tail then full <- 1`, with the new head
(40_ring_buffer.md R81). -/
def RingBuf.fullAfterPush (r : RingBuf) : Bool := if r.head = r.tail then true else r.full

/-- `STATUS = {zext_30(count), full, empty}` (10_state.md R29). -/
def RingBuf.statusWord (c : RingConfig) (r : RingBuf) : Word32 :=
  (BitVec.ofNat 30 (r.count c) ++ BitVec.ofBool r.full) ++ BitVec.ofBool r.isEmpty

end Sys2Proof.Machine
end

