-- ==== Sys2Proof/Machine/RingBuffer.lean ====
section
/-! DEFINITION. The ring buffer commands (40_ring_buffer.md R80 to R83). Each works on its instance's
ring (`ringInit`, `ringPush`, `ringPop`, `ringStatus`) and is lifted to the block by `onRing`. -/

namespace Sys2Proof.Machine

/-- R80: `head <- 0; tail <- 0; full <- 0; respond ACK`. `buf` is not cleared. -/
def ringInit (_ : RingConfig) (r : RingBuf) : RingResult :=
  .next ({ r with head := 0, tail := 0, full := false }, .ack)

/-- The accepted push of R81, on the ring whose slot `head` holds the item already: advance `head`,
then set `full` if the new head meets `tail`. -/
def ringAdvanceHead (c : RingConfig) (r : RingBuf) : RingBuf :=
  let r' := { r with head := inc c r.head }
  { r' with full := r'.fullAfterPush }

/-- R81: a push on a full buffer drops its item and changes nothing; any other stores it. -/
def ringPush (x : Item) (c : RingConfig) (r : RingBuf) : RingResult :=
  match pushOperand c x with
  | none => .refused .operandTooWide
  | some v =>
    if r.full then .next (r, .noItem)
    else
      match r.setSlot r.head v with
      | none => .fault .noSuchSlot
      | some r' => .next (ringAdvanceHead c r', .ack)

/-- R82: a pop on an empty buffer changes nothing; any other returns `buf[tail]`, advances `tail` and
clears `full`. -/
def ringPop (c : RingConfig) (r : RingBuf) : RingResult :=
  if r.isEmpty then .next (r, .noItem)
  else
    match r.slot r.tail with
    | none => .fault .noSuchSlot
    | some x => .next ({ r with tail := inc c r.tail, full := false }, .item x)

/-- R83: report the status word; no state is written. -/
def ringStatus (c : RingConfig) (r : RingBuf) : RingResult :=
  .next (r, .status (r.statusWord c))

/-- `RB.INIT` (R80). -/
def execRbInit (k : Nat) (s : State) : Host.Outcome State Fault Refusal :=
  onRing k (.cons k) ringInit s

/-- `RB.PUSH x` (R81). -/
def execRbPush (k : Nat) (x : Item) (s : State) : Host.Outcome State Fault Refusal :=
  onRing k (.prod k) (ringPush x) s

/-- `RB.POP` (R82). -/
def execRbPop (k : Nat) (s : State) : Host.Outcome State Fault Refusal :=
  onRing k (.cons k) ringPop s

/-- `RB.STATUS` (R83). -/
def execRbStatus (k : Nat) (s : State) : Host.Outcome State Fault Refusal :=
  onRing k (.cons k) ringStatus s

end Sys2Proof.Machine
end

