-- ==== Sys2Proof/Machine/Dispatch.lean ====
section
/-! DEFINITION. One arm per command. -/

namespace Sys2Proof.Machine

/-- Execute one decoded command (the last line of 30_encoding.md R69). -/
def exec (i : Instr) (s : State) : Host.Outcome State Fault Refusal :=
  match i with
  | .rbInit k => Sys2Proof.Machine.execRbInit k s
  | .rbPush k x => Sys2Proof.Machine.execRbPush k x s
  | .rbPop k => Sys2Proof.Machine.execRbPop k s
  | .rbStatus k => Sys2Proof.Machine.execRbStatus k s
  | .crcInit => Sys2Proof.Machine.execCrcInit s
  | .crcUpdate b => Sys2Proof.Machine.execCrcUpdate b s
  | .crcFinal => Sys2Proof.Machine.execCrcFinal s

end Sys2Proof.Machine
end

