-- ==== Sys2Proof/Machine/Ports.lean ====
section
/-! DEFINITION. The ports: presenting commands on them, and the order in which the block takes
commands (20_memory.md R50, R53, R57). -/

namespace Sys2Proof.Machine

/-- No command is held on port `p`. -/
def portFree (held : List Request) (p : Port) : Bool := held.all (fun r => decide (r.port ≠ p))

/-- Present commands that arrive together, in the order the block gives them (R50). A command whose
port is free is held behind those already held, so it waits for what is in progress and no longer
(R53). A command whose port is taken is not issued yet: its agent waits for the response (R57). The
second list holds those. -/
def presentAll : List Request → List Request → List Request × List Request
  | held, [] => (held, [])
  | held, r :: rs =>
    if portFree held r.port then presentAll (held ++ [r]) rs
    else ((presentAll held rs).1, r :: (presentAll held rs).2)

/-- The commands not issued yet come first among the next arrivals. -/
def defer : List Request → List (List Request) → List (List Request)
  | [], later => later
  | r :: rs, [] => [r :: rs]
  | r :: rs, now :: later => ((r :: rs) ++ now) :: later

/-- The agents present what arrives at this step. -/
def present (s : State) : State :=
  match s.arrivals with
  | [] => s
  | now :: later =>
    { s with
      held := (presentAll s.held now).1
      arrivals := defer (presentAll s.held now).2 later }

/-- The agents present `now` at the coming step, behind what arrives then already. No list in a state
bounds how many commands the agents issue: they may present more at every step of a run (log 23). -/
def State.arriveNow (now : List Request) (s : State) : State :=
  match s.arrivals with
  | [] => { s with arrivals := [now] }
  | first :: later => { s with arrivals := (first ++ now) :: later }

/-- Every command presented or to be presented, in order: none is lost by the arbitration (R50). -/
def State.outstanding (s : State) : List Request := s.held ++ s.arrivals.flatten

/-- Place `r` on its port, in place of what that port holds, as the command taken next. -/
def takeNext (r : Request) (s : State) : State :=
  { s with held := r :: s.held.filter (fun q => decide (q.port ≠ r.port)) }

end Sys2Proof.Machine
end

