-- ==== Sys2Proof/Machine/Serve.lean ====
section
/-! DEFINITION. Serving one command: decode it, then execute it or raise its fault. -/

namespace Sys2Proof.Machine

/-- Decode the request and execute the command, or raise the decoder's fault (30_encoding.md R69). A
request on a port the block does not have has no meaning (log 13). -/
def serve (r : Request) (s : State) : Host.Outcome State Fault Refusal :=
  if s.config.hasPort r.port then
    match decode r with
    | .ok i => exec i s
    | .error c => .next (s.raise c r.cmd r.port)
  else .refused .noSuchInstance

/-- Take the first held command off its port and serve it, as one atomic transition (20_memory.md
R46). With no command held the block does nothing (log 6). -/
def serveFirst (s : State) : Host.Outcome State Fault Refusal :=
  match s.held with
  | [] => .next s
  | r :: rest => serve r { s with held := rest }

end Sys2Proof.Machine
end

