-- ==== Sys2Proof/Machine/Step.lean ====
section
/-! DEFINITION. One step of the block: the agents present what arrives, and one command is served. -/

namespace Sys2Proof.Machine

/-- One step. A configuration the spec refuses has no steps (20_memory.md R58, 92_eei_decisions.md
D17). -/
def step (s : State) : Host.Outcome State Fault Refusal :=
  if s.config.accepted then serveFirst (present s) else .refused .configuration

/-- `s` with the command of a table word presented on its port and taken next, which is all that the
block's way of getting a command needs: it has no program counter and fetches nothing (10_state.md
R31, log 7). -/
def State.withFetchWord (s : State) (nbits w : Nat) : State :=
  takeNext (requestOfTableWord (w % 2 ^ nbits)) s

end Sys2Proof.Machine
end

