-- ==== Sys2Proof/Machine/Assembler.lean ====
section
/-! DEFINITION. The assembly syntax (30_encoding.md R70): one line to at most one command. Conventions
R70 leaves open (blanks, capitals, which instance `RB` names) are log 20. -/

namespace Sys2Proof.Machine

/-- Why a line is refused. -/
inductive AsmError where
  | notOneCommand | noSuchUnit | noSuchOperation | operandMissing | operandNotTaken | badLiteral
  | literalTooWide
  deriving DecidableEq, Repr

/-- `RB`, `RB_BYTE` and `RB_BUS`: the names of the standard instances (00_scope.md R6), in order. -/
def standardNames : List (List Char) :=
  [['R', 'B', '_', 'B', 'Y', 'T', 'E'], ['R', 'B', '_', 'B', 'U', 'S']]

/-- The value of one digit, capital or small. -/
def digitValue (c : Char) : Option Nat :=
  if '0' ≤ c ∧ c ≤ '9' then some (c.toNat - '0'.toNat)
  else if 'a' ≤ c ∧ c ≤ 'f' then some (c.toNat - 'a'.toNat + 10)
  else if 'A' ≤ c ∧ c ≤ 'F' then some (c.toNat - 'A'.toNat + 10)
  else none

/-- The digits' value in a base, onto what stands before them; none at a character that is no digit
of the base. -/
def digitsValue (base : Nat) : Nat → List Char → Option Nat
  | n, [] => some n
  | n, c :: cs =>
    match digitValue c with
    | none => none
    | some d => if d < base then digitsValue base (n * base + d) cs else none

/-- A number without digits is no literal. -/
def numberValue (base : Nat) : List Char → Option Nat
  | [] => none
  | c :: cs => digitsValue base 0 (c :: cs)

/-- A numeric literal `0x..`, `0b..` or decimal. -/
def literalValue : List Char → Option Nat
  | '0' :: 'x' :: ds => numberValue 16 ds
  | '0' :: 'b' :: ds => numberValue 2 ds
  | ds => numberValue 10 ds

/-- A character that separates words. -/
def isBlank (c : Char) : Bool := c = ' ' || c = '\t'

/-- A word read so far, if there is one. -/
def wordSoFar : List Char → List (List Char)
  | [] => []
  | c :: cs => [c :: cs]

/-- The words of a line; the first argument is the word being read. -/
def splitWords : List Char → List Char → List (List Char)
  | w, [] => wordSoFar w
  | w, c :: cs => if isBlank c then wordSoFar w ++ splitWords [] cs else splitWords (w ++ [c]) cs

/-- The unit a line addresses. -/
inductive AsmTarget where
  | ring (k : Nat)
  | crc
  deriving DecidableEq, Repr

/-- `CRC`, `RB` or an instance's name. -/
def targetOf (names : List (List Char)) (w : List Char) : Option AsmTarget :=
  if w = ['C', 'R', 'C'] then some .crc
  else if w = ['R', 'B'] then some (.ring 0)
  else
    match names.findIdx? (fun n => decide (n = w)) with
    | some k => some (.ring k)
    | none => none

/-- The mnemonic of `<unit>.<op>`. -/
def operationOf : AsmTarget → List Char → Option Mnemonic
  | .ring _, w =>
    if w = ['I', 'N', 'I', 'T'] then some .rbInit
    else if w = ['P', 'U', 'S', 'H'] then some .rbPush
    else if w = ['P', 'O', 'P'] then some .rbPop
    else if w = ['S', 'T', 'A', 'T', 'U', 'S'] then some .rbStatus
    else none
  | .crc, w =>
    if w = ['I', 'N', 'I', 'T'] then some .crcInit
    else if w = ['U', 'P', 'D', 'A', 'T', 'E'] then some .crcUpdate
    else if w = ['F', 'I', 'N', 'A', 'L'] then some .crcFinal
    else none

/-- A command without an operand. -/
def plainCommand (i : Instr) : List (List Char) → Except AsmError (Option Instr)
  | [] => .ok (some i)
  | _ :: _ => .error .operandNotTaken

/-- The one operand of a command that takes one; a literal that does not fit is refused. -/
def operandCommand (fits : Nat → Bool) (make : Nat → Instr) :
    List (List Char) → Except AsmError (Option Instr)
  | [] => .error .operandMissing
  | [w] =>
    match literalValue w with
    | none => .error .badLiteral
    | some x => if fits x then .ok (some (make x)) else .error .literalTooWide
  | _ :: _ :: _ => .error .notOneCommand

/-- The command of a mnemonic on a unit. The port is implied by the mnemonic (R70). -/
def commandOf (cs : Config) (t : AsmTarget) (m : Mnemonic) (operands : List (List Char)) :
    Except AsmError (Option Instr) :=
  match t with
  | .ring k =>
    match m with
    | .rbInit => plainCommand (.rbInit k) operands
    | .rbPush => operandCommand (cs.fits k) (.rbPush k) operands
    | .rbPop => plainCommand (.rbPop k) operands
    | .rbStatus => plainCommand (.rbStatus k) operands
    | .crcInit => .error .noSuchOperation
    | .crcUpdate => .error .noSuchOperation
    | .crcFinal => .error .noSuchOperation
  | .crc =>
    match m with
    | .rbInit => .error .noSuchOperation
    | .rbPush => .error .noSuchOperation
    | .rbPop => .error .noSuchOperation
    | .rbStatus => .error .noSuchOperation
    | .crcInit => plainCommand .crcInit operands
    | .crcUpdate =>
      operandCommand (fun x => decide (x < 2 ^ 8)) (fun x => .crcUpdate (BitVec.ofNat 8 x)) operands
    | .crcFinal => plainCommand .crcFinal operands

/-- One line: `<unit>.<op> [operand] [; comment]`, or nothing but a comment (no command). -/
def assembleLine (names : List (List Char)) (cs : Config) (line : List Char) :
    Except AsmError (Option Instr) :=
  match splitWords [] (line.takeWhile (fun c => decide (c ≠ ';'))) with
  | [] => .ok none
  | w :: operands =>
    match targetOf names (w.takeWhile (fun c => decide (c ≠ '.'))) with
    | none => .error .noSuchUnit
    | some t =>
      match operationOf t ((w.dropWhile (fun c => decide (c ≠ '.'))).drop 1) with
      | none => .error .noSuchOperation
      | some m => commandOf cs t m operands

end Sys2Proof.Machine
end

