-- ==== Sys2Proof/Machine/Packet.lean ====
section
/-! DEFINITION. The CRC field of the wire packet, as far as it fixes how the CRC result is serialised
and what it covers (00_scope.md R3; 20_memory.md R44; 41_crc16.md R113). The assembler that does this
is software outside the block (R4). -/

namespace Sys2Proof.Machine

/-- A 16-bit field on the wire, little-endian (20_memory.md R44). -/
def littleEndian16 (v : Word16) : List Byte := [v.extractLsb' 0 8, v.extractLsb' 8 8]

/-- A 32-bit field on the wire, little-endian (R44). -/
def littleEndian32 (v : Word32) : List Byte :=
  [v.extractLsb' 0 8, v.extractLsb' 8 8, v.extractLsb' 16 8, v.extractLsb' 24 8]

/-- `[sync:1][length:1][packet_id:4][timestamp:4][table records][crc16:2]`, less sync and CRC (R113). -/
structure Packet where
  length : Byte
  packetId : Word32
  timestamp : Word32
  records : List Byte
  deriving DecidableEq, Repr

/-- The length byte counts everything from `packet_id` through the byte before `crc16`
(41_crc16.md R115, 90_conflicts.md C2). -/
def Packet.lengthAgrees (p : Packet) : Bool := decide (p.length.toNat = 8 + p.records.length)

/-- The bytes given to `CRC.UPDATE`, in order: everything after the sync byte but the CRC field
(R113). -/
def Packet.covered (p : Packet) : List Byte :=
  p.length :: (littleEndian32 p.packetId ++ littleEndian32 p.timestamp ++ p.records)

/-- The packet on the wire, with the CRC field appended little-endian (R113, R44). -/
def Packet.wire (sync : Byte) (p : Packet) : List Byte :=
  sync :: (p.covered ++ littleEndian16 (crc16 p.covered))

end Sys2Proof.Machine
end

