-- ==== Sys2Proof/Machine/Runs.lean ====
section
/-! DEFINITION. Runs: finite ones as lists and infinite ones as sequences of commands in their total order
(20_memory.md R50, 70_reset_and_hazards.md R149), and the pseudo-commands (30_encoding.md R71, R72). -/

namespace Sys2Proof.Machine

/-- Serve requests one after another, faulting ones included. -/
def serveAll : List Request → State → Host.Outcome State Fault Refusal
  | [], s => .next s
  | r :: rs, s =>
    match serve r s with
    | .next t => serveAll rs t
    | .fault e => .fault e
    | .refused e => .refused e

/-- Execute decoded commands one after another. -/
def execAll : List Instr → State → Host.Outcome State Fault Refusal
  | [], s => .next s
  | i :: is, s =>
    match exec i s with
    | .next t => execAll is t
    | .fault e => .fault e
    | .refused e => .refused e

/-- An infinite run from `s` (70_reset_and_hazards.md R149): an infinite sequence of commands in their
total order, and the state before each. It has no final state. State is plain data, so the sequence
stands beside it and not in it (log 23). -/
structure InfiniteRun (s : State) (rs : Nat → Request) (ss : Nat → State) : Prop where
  start : ss 0 = s
  next : ∀ n, serve (rs n) (ss n) = .next (ss (n + 1))

/-- An infinite run at the ports: at every step the agents may present more, `now n` at step `n`, in the
order the block gives commands that arrive together. -/
structure InfinitePortRun (s : State) (now : Nat → List Request) (ss : Nat → State) : Prop where
  start : ss 0 = s
  next : ∀ n, step ((ss n).arriveNow (now n)) = .next (ss (n + 1))

/-- The pseudo-command `CRC16 b0, ..., b(n-1)` expands to these commands (R71). -/
def crc16Commands (ds : List Byte) : List Instr :=
  .crcInit :: (ds.map Instr.crcUpdate ++ [.crcFinal])

/-- The pseudo-command `RB.DRAIN` on `P_CONS` of instance `k`, as far as it has come (R72): from `s`,
pops have returned the items `xs` and the block is in `t`. The loop is run by the consumer; between
its pops the other agents may issue any commands. Nothing bounds the number of pops
(70_reset_and_hazards.md R150, log 21). -/
inductive DrainSoFar (k : Nat) : State → List Item → State → Prop where
  | start (s : State) : DrainSoFar k s [] s
  | pop (s t u v : State) (xs : List Item) (x : Item) (others : List Instr)
      (before : DrainSoFar k s xs t)
      (popped : exec (.rbPop k) t = .next u)
      (answered : u.responses = t.responses ++ [{ port := .cons k, rsp := .item x }])
      (notConsumer : ∀ i ∈ others, i.port ≠ .cons k)
      (meanwhile : execAll others u = .next v) :
      DrainSoFar k s (xs ++ [x]) v

/-- A drain that ends: after the items `xs`, a pop is answered `NONE` (R72). -/
def Drains (k : Nat) (s : State) (xs : List Item) (t : State) : Prop :=
  ∃ u, DrainSoFar k s xs u ∧ exec (.rbPop k) u = .next t ∧
    t.responses = u.responses ++ [{ port := .cons k, rsp := .noItem }]

/-- A drain that never ends (70_reset_and_hazards.md R150, 93_implementation_defined.md I10): an infinite
run in which the consumer of instance `k` issues nothing but pops, again and again, and each returns an
item. -/
structure DrainsForever (k : Nat) (s : State) (rs : Nat → Request) (ss : Nat → State) : Prop where
  run : InfiniteRun s rs ss
  onlyPops : ∀ n, (rs n).port = .cons k → rs n = encode (.rbPop k)
  again : ∀ n, ∃ m, n ≤ m ∧ rs m = encode (.rbPop k)
  answered : ∀ n, rs n = encode (.rbPop k) → ∃ x,
    (ss (n + 1)).responses = (ss n).responses ++ [{ port := .cons k, rsp := .item x }]

end Sys2Proof.Machine
end

