-- ==== Sys2Proof/Safety.lean ====
section
/-! DEFINITION. What counts as a sound state and a safe run, and the abstract views the statements
speak of: the content of a buffer, the bounded queue, the history of a run. -/

namespace Sys2Proof.Machine

/-- The next state of an outcome, if it is one. -/
def nextOf {σ φ ρ : Type} : Host.Outcome σ φ ρ → Option σ
  | .next s => some s
  | .fault _ => none
  | .refused _ => none

/-- The storage of an instance has its form: `CAP` slots, each an element of `ELEM_BITS` bits
(10_state.md R24). -/
abbrev StorageWf (c : RingConfig) (r : RingBuf) : Prop :=
  r.buf.length = c.cap ∧ ∀ x ∈ r.buf, x < 2 ^ c.elemBits

/-- A ring is sound: its storage has its form, `head` and `tail` lie in `0 .. CAP-1` (R21, R22), and
`full = 1` implies `head = tail` (R25). -/
abbrev RingWf (c : RingConfig) (r : RingBuf) : Prop :=
  StorageWf c r ∧ r.head < c.cap ∧ r.tail < c.cap ∧ (r.full = true → r.head = r.tail)

/-- A state is sound: the configuration is accepted, every ring is sound, every command presented or
to be presented can stand on its port, and a port holds at most one command (20_memory.md R57). -/
abbrev Inv (s : State) : Prop :=
  s.config.accepted = true ∧
  (∀ u ∈ s.units, RingWf u.cfg u.ring) ∧
  (∀ r ∈ s.outstanding, r.wellFormed s.config = true) ∧
  (s.held.map Request.port).Nodup

/-- The run so far is not faulted: its fault log is empty (60_exceptions.md R124). -/
abbrev State.clean (s : State) : Prop := s.faultLog = []

/-- The records of the faults of a list of requests, in order (60_exceptions.md R122, R126). -/
def faultsOf : List Request → List FaultRecord
  | [] => []
  | r :: rs =>
    match decode r with
    | .ok _ => faultsOf rs
    | .error c => { code := c, cmd := r.cmd, port := r.port } :: faultsOf rs

/-- Instance `k` of the state has parameters `c`, which are accepted, and the sound ring `r`. -/
abbrev HasRing (s : State) (k : Nat) (c : RingConfig) (r : RingBuf) : Prop :=
  s.units[k]? = some { cfg := c, ring := r } ∧ c.accepted = true ∧ RingWf c r

/-- The content of an instance: `[buf[(tail + j) mod CAP] for j = 0 .. count-1]` (40_ring_buffer.md
R85). In a sound ring every index names a slot, and the 0 below is never taken. -/
def RingBuf.content (c : RingConfig) (r : RingBuf) : List Item :=
  (List.range (r.count c)).map (fun j => r.buf.getD ((r.tail + j) % c.cap) 0)

/-- Slot `i` is occupied: it is `(tail + j) mod CAP` for some `j < count` (10_state.md R28). -/
def RingBuf.occupied (c : RingConfig) (r : RingBuf) (i : Nat) : Prop :=
  ∃ j < r.count c, i = (r.tail + j) % c.cap

/-- The parts of the state that belong to the hardware's units (60_exceptions.md R123): the rings and
`acc`. -/
abbrev SameUnits (s t : State) : Prop := s.units = t.units ∧ s.acc = t.acc

/-- `unit` addresses instance `k` in the assembly syntax (30_encoding.md R70): it is `RB`, which names
instance 0 (log 20), or the first name of that instance, a word without the syntax's own characters. -/
def AddressesRing (names : List (List Char)) (unit : List Char) (k : Nat) : Prop :=
  (unit = ['R', 'B'] ∧ k = 0) ∨
  (names[k]? = some unit ∧ (∀ j < k, names[j]? ≠ some unit) ∧ unit ≠ ['R', 'B'] ∧
    unit ≠ ['C', 'R', 'C'] ∧ ∀ c ∈ unit, c ∉ ['.', ';', ' ', '\t'])

/-- What may follow the last word of a line (R70): blanks, then nothing or a comment after `;`. -/
def LineEnd (e : List Char) : Prop :=
  ∃ blanks comment, e = blanks ++ comment ∧ (∀ c ∈ blanks, c = ' ' ∨ c = '\t') ∧
    (comment = [] ∨ ∃ text, comment = ';' :: text)

/-- The ring buffer commands, without their instance. -/
inductive RingOp where
  | init
  | push (x : Item)
  | pop
  | status
  deriving DecidableEq, Repr

/-- The command on instance `k`. -/
def RingOp.on (k : Nat) : RingOp → Instr
  | .init => .rbInit k
  | .push x => .rbPush k x
  | .pop => .rbPop k
  | .status => .rbStatus k

/-- A bounded FIFO queue of capacity `CAP` under a command: the new queue and the response (R85). -/
def queueStep (c : RingConfig) : RingOp → List Item → List Item × Response
  | .init, _ => ([], .ack)
  | .push x, q => if q.length = c.cap then (q, .noItem) else (q ++ [x], .ack)
  | .pop, [] => ([], .noItem)
  | .pop, x :: q => (q, .item x)
  | .status, q =>
    (q, .status ((BitVec.ofNat 30 q.length ++ BitVec.ofBool (decide (q.length = c.cap)))
      ++ BitVec.ofBool (decide (q = []))))

/-- The queue under a list of commands: the last queue and the responses in order. -/
def queueRun (c : RingConfig) : List RingOp → List Item → List Item × List Response
  | [], q => (q, [])
  | o :: os, q =>
    ((queueRun c os (queueStep c o q).1).1, (queueStep c o q).2 :: (queueRun c os (queueStep c o q).1).2)

/-- The operand of a push fits the instance. -/
def RingOp.fits (c : RingConfig) : RingOp → Bool
  | .init => true
  | .push x => decide (x < 2 ^ c.elemBits)
  | .pop => true
  | .status => true

/-- The command with its item, if it carries one, replaced by what `f` makes of it. -/
def RingOp.mapItem (f : Item → Item) : RingOp → RingOp
  | .init => .init
  | .push x => .push (f x)
  | .pop => .pop
  | .status => .status

/-- The response with its item, if it carries one, replaced by what `f` makes of it. -/
def Response.mapItem (f : Item → Item) : Response → Response
  | .ack => .ack
  | .item x => .item (f x)
  | .status w => .status w
  | .crc r => .crc r
  | .noItem => .noItem
  | .fault c => .fault c

/-- The items of the pushes that were accepted, in order, from commands and their responses. -/
def acceptedItems : List RingOp → List Response → List Item
  | .push x :: os, .ack :: vs => x :: acceptedItems os vs
  | _ :: os, _ :: vs => acceptedItems os vs
  | _, _ => []

/-- The items that pops returned, in order, from the responses. -/
def poppedItems : List Response → List Item
  | .item x :: vs => x :: poppedItems vs
  | _ :: vs => poppedItems vs
  | [] => []

/-- The bytes given to `CRC.UPDATE` since the last `CRC.INIT` of a list of commands, after the bytes
`ds` given before it (41_crc16.md R111). -/
def bytesSinceInit : List Instr → List Byte → List Byte
  | [], ds => ds
  | .crcInit :: is, _ => bytesSinceInit is []
  | .crcUpdate b :: is, ds => bytesSinceInit is (ds ++ [b])
  | .crcFinal :: is, ds => bytesSinceInit is ds
  | .rbInit _ :: is, ds => bytesSinceInit is ds
  | .rbPush _ _ :: is, ds => bytesSinceInit is ds
  | .rbPop _ :: is, ds => bytesSinceInit is ds
  | .rbStatus _ :: is, ds => bytesSinceInit is ds

/-- The byte step with the input bits one at a time, bit 0 first (20_memory.md R43): the polynomial is
applied when the bit shifted out and the input bit differ. -/
def crcSerialStep (a : Word16) (b : Byte) : Word16 :=
  (List.range 8).foldl
    (fun a j => if (a.getLsbD 0 ^^ b.getLsbD j) then (a >>> 1) ^^^ 0x8408#16 else a >>> 1) a

/-- The number of pops on instance `k` in a list of commands. -/
def popsOn (k : Nat) (is : List Instr) : Nat := is.countP (fun i => decide (i = .rbPop k))

/-- The new responses of a run from `s` to `t`. -/
def newResponses (s t : State) : List PortResponse := t.responses.drop s.responses.length

/-- What a run shows to the agents: its responses, where it reaches a next state. -/
def shown (o : Host.Outcome State Fault Refusal) : Option (List PortResponse) :=
  (nextOf o).map State.responses

end Sys2Proof.Machine
end

