-- ==== Sys2Proof/Certificates/Slice0/Obligations.lean ====
section
/-! DEFINITION. The statements for the provers. Rules R<n> are rules of spec/. Where the spec marks a
rule as its own inference ('[derived: from …]'), the statement of it has basis 'derived'. -/

open Sys2Proof Sys2Proof.Machine

/-! ### Taking a command, decoding it, faulting -/

/-- 20_memory.md R46, R50 and 30_encoding.md R69: a step is the execution of the command that the first
held request decodes to, with that request taken off its port. Around `exec` the step adds only what
arrives (`present`) and the taking of the request. -/
def Obligations.StepRunsTheDecodedCommand : Prop :=
  ∀ (s : State) (r : Request) (rest : List Request) (i : Instr),
    s.config.accepted = true → (present s).held = r :: rest → s.config.hasPort r.port = true →
    decode r = .ok i → step s = exec i { present s with held := rest }

/-- R122: a fault records the fault code, the full command word and the port, and nothing else; the
port is answered FAULT with the code in `RSP_DATA[7:0]`. -/
def Obligations.FaultRecordsCodeWordAndPort : Prop :=
  ∀ (s : State) (r : Request) (rest : List Request) (c : FaultCode),
    s.config.accepted = true → (present s).held = r :: rest → s.config.hasPort r.port = true →
    decode r = .error c →
    ∃ t, step s = .next t ∧
      t.faultLog = s.faultLog ++ [{ code := c, cmd := r.cmd, port := r.port }] ∧
      t.responses = s.responses ++ [{ port := r.port, rsp := .fault c }] ∧
      (Response.fault c).kind = 0b10#2 ∧
      ∀ cfg, (Response.fault c).data cfg = some { width := 8, value := c.code.toNat }

/-- R123: a faulting command changes no unit state, only the fault log (and the answer) grows, and the
next command on any port is served just as it would have been without the fault. -/
def Obligations.FaultingCommandChangesNoUnitState : Prop :=
  ∀ (s : State) (r : Request) (c : FaultCode),
    s.config.hasPort r.port = true → decode r = .error c →
    ∃ t, serve r s = .next t ∧ SameUnits s t ∧ t.held = s.held ∧ t.arrivals = s.arrivals ∧
      t.faultLog = s.faultLog ++ [{ code := c, cmd := r.cmd, port := r.port }] ∧
      ∀ (q : Request) (u : State), serve q s = .next u →
        ∃ v, serve q t = .next v ∧ SameUnits u v ∧
          v.responses.getLast? = u.responses.getLast?

/-- R124 and R126: over any requests on any ports, the fault log grows by the records of those that the
decoder refuses, each on its own, in order; so a run is clean exactly when it starts clean and every
request decodes, and it is then the execution of the decoded commands. -/
def Obligations.CleanRunsAreThoseWithoutAFault : Prop :=
  ∀ (s t : State) (rs : List Request), serveAll rs s = .next t →
    t.faultLog = s.faultLog ++ faultsOf rs ∧
    (t.clean ↔ s.clean ∧ ∀ r ∈ rs, ∃ i, decode r = .ok i) ∧
    (∀ is : List Instr, rs.map decode = is.map Except.ok → execAll is s = .next t)

/-- R121, R125: there are exactly the two faults, with their codes and causes; an illegal word faults
as illegal whatever the port, and only a legal word can be on a wrong port. -/
def Obligations.ExactlyTwoFaultsIllegalWordFirst : Prop :=
  (∀ (r : Request) (c : FaultCode), decode r = .error c ↔
    (c = .illegalCommand ∧
      r.cmd ∉ [0x00#8, 0x01#8, 0x02#8, 0x03#8, 0x40#8, 0x41#8, 0x42#8]) ∨
    (c = .wrongPort ∧
      ((r.cmd = 0x01#8 ∧ ∀ k, r.port ≠ .prod k) ∨
       (r.cmd ∈ [0x00#8, 0x02#8, 0x03#8] ∧ ∀ k, r.port ≠ .cons k) ∨
       (r.cmd ∈ [0x40#8, 0x41#8, 0x42#8] ∧ r.port ≠ .crc)))) ∧
  FaultCode.illegalCommand.code = 0x01#8 ∧ FaultCode.wrongPort.code = 0x02#8 ∧
  ∀ c : FaultCode, c.code = 0x01#8 ∨ c.code = 0x02#8

/-- R67: the illegal words are those with `RES` not 0, those with `UNIT` 0b10 or 0b11, and 0x43; they
are 249 of the 256 words, and an illegal command changes no state. -/
def Obligations.IllegalWordsAreThoseOutsideTheMap : Prop :=
  (∀ r : Request, decode r = .error .illegalCommand ↔
    (r.cmd &&& 0x3C#8 ≠ 0x00#8 ∨ r.cmd >>> 6 = 0x02#8 ∨ r.cmd >>> 6 = 0x03#8 ∨ r.cmd = 0x43#8)) ∧
  ((List.range 256).countP
    (fun w => decide (decode (.crc (BitVec.ofNat 8 w) 0x00#8) = .error .illegalCommand))) = 249 ∧
  ∀ (r : Request) (s : State), s.config.hasPort r.port = true →
    decode r = .error .illegalCommand → ∃ t, serve r s = .next t ∧ SameUnits s t

/-- R62, R64: a request decodes to a command exactly when it is the command's word on the command's
port, with the operand on `DATA` where the command takes one; and every command is issued by its
encoding, which can stand on its port when the command is well formed. -/
def Obligations.DecodingInvertsEncoding : Prop :=
  (∀ (r : Request) (i : Instr), decode r = .ok i ↔
    r.port = i.port ∧ r.cmd = i.word ∧
    (∀ k x, i = .rbPush k x → r = .prod k i.word x) ∧
    (∀ b, i = .crcUpdate b → r = .crc i.word b)) ∧
  (∀ (cs : Config) (i : Instr), i.wellFormed cs = true →
    decode (encode i) = .ok i ∧ (encode i).wellFormed cs = true)

/-- R62: the seven words, bit by bit, on their ports. -/
def Obligations.SevenWordsDecode : Prop :=
  decode (.cons 0 0b00000000#8) = .ok (.rbInit 0) ∧
  decode (.prod 0 0b00000001#8 0x11) = .ok (.rbPush 0 0x11) ∧
  decode (.cons 1 0b00000010#8) = .ok (.rbPop 1) ∧
  decode (.cons 0 0b00000011#8) = .ok (.rbStatus 0) ∧
  decode (.crc 0b01000000#8 0xFF#8) = .ok .crcInit ∧
  decode (.crc 0b01000001#8 0x31#8) = .ok (.crcUpdate 0x31#8) ∧
  decode (.crc 0b01000010#8 0x00#8) = .ok .crcFinal

/-! ### The ring buffer commands -/

/-- R80: `RB.INIT` sets `head`, `tail` and `full` to 0 and answers ACK; every item is discarded, `buf`
is not cleared, an empty buffer shows the same status before and after; a push ordered before it is
discarded and one ordered after it is the first item; the word is WRONG_PORT on the other ports. -/
def Obligations.RbInitEmptiesTheBuffer : Prop :=
  (∀ (s : State) (k : Nat) (c : RingConfig) (r : RingBuf),
    s.units[k]? = some { cfg := c, ring := r } → c.accepted = true →
    exec (.rbInit k) s =
      .next ((s.setRing k { buf := r.buf, head := 0, tail := 0, full := false }).respond
        (.cons k) .ack) ∧
    RingBuf.content c { buf := r.buf, head := 0, tail := 0, full := false } = [] ∧
    RingBuf.statusWord c { buf := r.buf, head := 0, tail := 0, full := false } = 0x00000001#32 ∧
    (r.isEmpty = true → r.statusWord c = 0x00000001#32)) ∧
  (∀ (s : State) (k : Nat) (c : RingConfig) (r : RingBuf) (x : Item),
    HasRing s k c r → x < 2 ^ c.elemBits →
    (∃ t r', execAll [.rbInit k, .rbPush k x] s = .next t ∧ HasRing t k c r' ∧
      r'.content c = [x]) ∧
    (∃ t r', execAll [.rbPush k x, .rbInit k] s = .next t ∧ HasRing t k c r' ∧
      r'.content c = [])) ∧
  (∀ k d b, decode (.cons k 0x00#8) = .ok (.rbInit k) ∧
    decode (.prod k 0x00#8 d) = .error .wrongPort ∧ decode (.crc 0x00#8 b) = .error .wrongPort)

/-- R81, which the spec marks as derived from R23 and R25: `RB.PUSH x` on a full buffer drops `x`, answers NONE and changes nothing; otherwise it stores
`x` at `head`, advances `head` modulo `CAP`, sets `full` when the new head meets `tail`, which is when
the item takes the last free slot, and answers ACK. The word is WRONG_PORT on the other ports. -/
def Obligations.RbPushAppendsUnlessFull : Prop :=
  (∀ (s : State) (k : Nat) (c : RingConfig) (r : RingBuf) (x : Item),
    HasRing s k c r → x < 2 ^ c.elemBits →
    (r.full = true → exec (.rbPush k x) s = .next (s.respond (.prod k) .noItem)) ∧
    (r.full = false →
      exec (.rbPush k x) s =
        .next ((s.setRing k
          { buf := r.buf.set r.head x
            head := (r.head + 1) % c.cap
            tail := r.tail
            full := decide ((r.head + 1) % c.cap = r.tail) }).respond (.prod k) .ack) ∧
      ((r.head + 1) % c.cap = r.tail ↔ r.count c + 1 = c.cap))) ∧
  (∀ k d b, decode (.prod k 0x01#8 d) = .ok (.rbPush k d) ∧
    decode (.cons k 0x01#8) = .error .wrongPort ∧ decode (.crc 0x01#8 b) = .error .wrongPort)

/-- R82: `RB.POP` on an empty buffer answers NONE and changes nothing; otherwise it answers ACK with
the oldest item, `buf[tail]`, on all the lines of `RSP_DATA`, advances `tail` modulo `CAP` and clears
`full`. The word is WRONG_PORT on the other ports. -/
def Obligations.RbPopReturnsTheOldest : Prop :=
  (∀ (s : State) (k : Nat) (c : RingConfig) (r : RingBuf), HasRing s k c r →
    (r.head = r.tail → r.full = false →
      exec (.rbPop k) s = .next (s.respond (.cons k) .noItem)) ∧
    (¬(r.head = r.tail ∧ r.full = false) →
      ∃ x, r.buf[r.tail]? = some x ∧ (r.content c).head? = some x ∧
        exec (.rbPop k) s =
          .next ((s.setRing k
            { buf := r.buf, head := r.head, tail := (r.tail + 1) % c.cap, full := false }).respond
              (.cons k) (.item x)) ∧
        (Response.item x).kind = 0b00#2 ∧
        (Response.item x).data c = some { width := max c.elemBits 32, value := x })) ∧
  (∀ k d b, decode (.cons k 0x02#8) = .ok (.rbPop k) ∧
    decode (.prod k 0x02#8 d) = .error .wrongPort ∧ decode (.crc 0x02#8 b) = .error .wrongPort)

/-- R83: `RB.STATUS` answers ACK with the status word, computed from one state, and writes nothing.
Empty reads 0x00000001 and full reads `(CAP << 2) | 0b10`. The word is WRONG_PORT on the other
ports. -/
def Obligations.RbStatusReportsTheState : Prop :=
  (∀ (s : State) (k : Nat) (c : RingConfig) (r : RingBuf), HasRing s k c r →
    ∃ w : Word32,
      exec (.rbStatus k) s = .next (s.respond (.cons k) (.status w)) ∧
      (w.toNat / 4 = if r.full then c.cap else (((r.head : Int) - r.tail) % c.cap).toNat) ∧
      w.getLsbD 1 = r.full ∧
      w.getLsbD 0 = (decide (r.head = r.tail) && !r.full) ∧
      (r.head = r.tail → r.full = false → w = 0x00000001#32) ∧
      (r.full = true → w = BitVec.ofNat 32 (c.cap * 4 + 2)) ∧
      (Response.status w).data c = some { width := max c.elemBits 32, value := w.toNat }) ∧
  (∀ k d b, decode (.cons k 0x03#8) = .ok (.rbStatus k) ∧
    decode (.prod k 0x03#8 d) = .error .wrongPort ∧ decode (.crc 0x03#8 b) = .error .wrongPort)

/-- Log 10 (30_encoding.md R64, R70): an operand wider than `ELEM_BITS` cannot stand on the port, and
the model gives such a push no meaning. The model's choice. -/
def Obligations.TooWidePushOperandIsRefused : Prop :=
  ∀ (s : State) (k : Nat) (c : RingConfig) (r : RingBuf) (x : Item),
    HasRing s k c r → 2 ^ c.elemBits ≤ x → exec (.rbPush k x) s = .refused .operandTooWide

/-- Frame of the ring buffer commands (10_state.md R21 to R24, R34, R35): when one goes on, `acc`, the
fault log, the ports, every other instance and the instance's own parameters are unchanged; a slot of
`buf` changes only by a push, and then only the slot `head` named; `head` changes only by a push or an
init, `tail` only by a pop or an init; a status changes nothing of the instance. -/
def Obligations.RingCommandsFrame : Prop :=
  ∀ (k : Nat) (o : RingOp) (s t : State), exec (o.on k) s = .next t →
    t.acc = s.acc ∧ t.faultLog = s.faultLog ∧ t.held = s.held ∧ t.arrivals = s.arrivals ∧
    t.units.length = s.units.length ∧
    (∀ j, j ≠ k → t.units[j]? = s.units[j]?) ∧
    ∃ u u', s.units[k]? = some u ∧ t.units[k]? = some u' ∧ u'.cfg = u.cfg ∧
      ((∀ x, o ≠ .push x) → u'.ring.buf = u.ring.buf) ∧
      (∀ j, j ≠ u.ring.head → u'.ring.buf[j]? = u.ring.buf[j]?) ∧
      (o = .pop → u'.ring.head = u.ring.head) ∧
      ((∃ x, o = .push x) → u'.ring.tail = u.ring.tail) ∧
      (o = .status → u' = u)

/-- R24: `buf` has `CAP` slots of `ELEM_BITS` bits, as long as the ring is sound; only a successful push
writes a slot, namely `buf[head]`; only a successful pop reads one, namely `buf[tail]`: what any other
command, a pop on an empty buffer included, answers and leaves in `head`, `tail` and `full` is the same
whatever `buf` holds. -/
def Obligations.OnlyPushWritesASlotOnlyPopReadsOne : Prop :=
  (∀ (i : Instr) (s t : State) (k : Nat) (u u' : RingUnit) (j : Nat), exec i s = .next t →
    s.units[k]? = some u → t.units[k]? = some u' → u'.ring.buf[j]? ≠ u.ring.buf[j]? →
    ∃ x, i = .rbPush k x ∧ j = u.ring.head ∧ u'.ring.buf[j]? = some x ∧
      newResponses s t = [{ port := .prod k, rsp := .ack }]) ∧
  (∀ (o : RingOp) (s t : State) (k : Nat) (c : RingConfig) (r r' : RingBuf),
    HasRing s k c r → r'.head = r.head → r'.tail = r.tail → r'.full = r.full → RingWf c r' →
    (o = .pop → r.isEmpty = false → r'.buf[r.tail]? = r.buf[r.tail]?) →
    exec (o.on k) s = .next t →
    ∃ t', exec (o.on k) (s.setRing k r') = .next t' ∧ t'.responses = t.responses ∧
      ∃ u u', t.units[k]? = some u ∧ t'.units[k]? = some u' ∧ u'.ring.head = u.ring.head ∧
        u'.ring.tail = u.ring.tail ∧ u'.ring.full = u.ring.full) ∧
  (∀ (s : State), Inv s → ∀ u ∈ s.units, u.ring.buf.length = u.cfg.cap ∧
    ∀ x ∈ u.ring.buf, x < 2 ^ u.cfg.elemBits)

/-- R84: `inc` wraps from `CAP-1` to 0 and never leaves `0 .. CAP-1`; for `CAP` a power of two it is
the increment that discards the carry; the indices fit their registers of `IW` bits; and `inc` is the
only arithmetic on `head` and `tail`: after any command each is what it was, 0, or its successor. -/
def Obligations.IndicesAdvanceModuloCapacity : Prop :=
  (∀ (c : RingConfig) (i : Nat), i < c.cap → inc c i < c.cap ∧ i < 2 ^ indexWidth c ∧
    (i + 1 = c.cap → inc c i = 0) ∧ (i + 1 < c.cap → inc c i = i + 1)) ∧
  (∀ (c : RingConfig) (w i : Nat), 0 < w → c.cap = 2 ^ w → i < c.cap →
    indexWidth c = w ∧ inc c i = (BitVec.ofNat w i + 1).toNat) ∧
  (∀ (i : Instr) (s t : State) (k : Nat) (u u' : RingUnit), exec i s = .next t →
    s.units[k]? = some u → t.units[k]? = some u' →
    u'.ring.head ∈ [u.ring.head, 0, inc u.cfg u.ring.head] ∧
    u'.ring.tail ∈ [u.ring.tail, 0, inc u.cfg u.ring.tail])

/-- R25: `full = 1` implies `head = tail`; every command preserves this, and reset establishes it. -/
def Obligations.FullImpliesHeadMeetsTail : Prop :=
  (∀ (i : Instr) (s t : State), exec i s = .next t →
    (∀ u ∈ s.units, u.ring.full = true → u.ring.head = u.ring.tail) →
    ∀ u ∈ t.units, u.ring.full = true → u.ring.head = u.ring.tail) ∧
  (∀ (cs : Config), ∀ u ∈ (State.resetOf cs).units,
    u.ring.full = true → u.ring.head = u.ring.tail)

/-- R27: the count lies in `0 .. CAP`, is 0 exactly when the buffer is empty and `CAP` exactly when
`full = 1`; a successful push adds one to it and a successful pop takes one. -/
def Obligations.CountMatchesPushesAndPops : Prop :=
  (∀ (c : RingConfig) (r : RingBuf), RingWf c r →
    r.count c ≤ c.cap ∧ (r.count c = 0 ↔ r.head = r.tail ∧ r.full = false) ∧
    (r.count c = c.cap ↔ r.full = true) ∧
    r.count c = if r.full then c.cap else (((r.head : Int) - r.tail) % c.cap).toNat) ∧
  (∀ (s t : State) (k : Nat) (c : RingConfig) (r r' : RingBuf) (x : Item),
    HasRing s k c r → t.units[k]? = some { cfg := c, ring := r' } →
    (exec (.rbPush k x) s = .next t →
      newResponses s t = [{ port := .prod k, rsp := .ack }] → r'.count c = r.count c + 1) ∧
    (∀ y, exec (.rbPop k) s = .next t →
      newResponses s t = [{ port := .cons k, rsp := .item y }] → r'.count c + 1 = r.count c))

/-- R29: the fields of the status word: `EMPTY` in bit 0, `FULL` in bit 1, `COUNT` in bits 31:2, and
`EMPTY` and `FULL` are never both 1. -/
def Obligations.StatusWordFields : Prop :=
  ∀ (c : RingConfig) (r : RingBuf), c.accepted = true → RingWf c r →
    (r.statusWord c).extractLsb' 0 1 = (if r.isEmpty then 1#1 else 0#1) ∧
    (r.statusWord c).extractLsb' 1 1 = (if r.full then 1#1 else 0#1) ∧
    ((r.statusWord c).extractLsb' 2 30).toNat = r.count c ∧
    ¬((r.statusWord c).getLsbD 0 = true ∧ (r.statusWord c).getLsbD 1 = true)

/-- R85: every list of commands on an instance acts as on a bounded FIFO queue of capacity `CAP`: it
completes, the content afterwards is the queue's, and the responses are the queue's. -/
def Obligations.RingRefinesTheBoundedQueue : Prop :=
  ∀ (s : State) (k : Nat) (c : RingConfig) (r : RingBuf) (os : List RingOp),
    HasRing s k c r → (∀ o ∈ os, o.fits c = true) →
    ∃ t r', execAll (os.map (RingOp.on k)) s = .next t ∧ HasRing t k c r' ∧
      r'.content c = (queueRun c os (r.content c)).1 ∧
      t.responses.map PortResponse.rsp =
        s.responses.map PortResponse.rsp ++ (queueRun c os (r.content c)).2

/-- R86: from the empty state `CAP` pushes in a row are all answered ACK, after them `full` is 1, and
the next push is answered NONE. -/
def Obligations.CapacityPushesFillTheBuffer : Prop :=
  ∀ (s : State) (k : Nat) (c : RingConfig) (r : RingBuf) (xs : List Item) (x : Item),
    HasRing s k c r → r.isEmpty = true → xs.length = c.cap → (∀ y ∈ xs, y < 2 ^ c.elemBits) →
    x < 2 ^ c.elemBits →
    ∃ t r', execAll (xs.map (Instr.rbPush k)) s = .next t ∧ HasRing t k c r' ∧ r'.full = true ∧
      t.responses = s.responses ++ List.replicate c.cap { port := .prod k, rsp := .ack } ∧
      exec (.rbPush k x) t = .next (t.respond (.prod k) .noItem)

/-- R87: a push on a full buffer, a pop on an empty buffer and any status leave the whole state
unchanged, but for the response given. -/
def Obligations.NoOpLaws : Prop :=
  ∀ (s : State) (k : Nat) (c : RingConfig) (r : RingBuf) (x : Item), HasRing s k c r →
    (r.full = true → x < 2 ^ c.elemBits →
      exec (.rbPush k x) s = .next (s.respond (.prod k) .noItem)) ∧
    (r.isEmpty = true → exec (.rbPop k) s = .next (s.respond (.cons k) .noItem)) ∧
    ∃ v, exec (.rbStatus k) s = .next (s.respond (.cons k) v)

/-- R88: a push and a pop arrive together on a full buffer. Pop first: the pop returns the oldest item
and the push succeeds, and `full` is 1 again. Push first: the push is dropped, the pop returns the
oldest item, and `CAP - 1` items remain. The model admits both. -/
def Obligations.PushAndPopTogetherOnAFullBuffer : Prop :=
  ∀ (s : State) (k : Nat) (c : RingConfig) (r : RingBuf) (x : Item),
    s.config.accepted = true → s.held = [] → HasRing s k c r → r.full = true →
    x < 2 ^ c.elemBits →
    ∃ y, (r.content c).head? = some y ∧
      (∃ t r', Host.Core.run Sys2Proof.core 2
          { s with arrivals := [[.cons k 0x02#8, .prod k 0x01#8 x]] } = .next t ∧
        HasRing t k c r' ∧ r'.full = true ∧
        t.responses = s.responses ++
          [{ port := .cons k, rsp := .item y }, { port := .prod k, rsp := .ack }]) ∧
      (∃ t r', Host.Core.run Sys2Proof.core 2
          { s with arrivals := [[.prod k 0x01#8 x, .cons k 0x02#8]] } = .next t ∧
        HasRing t k c r' ∧ r'.count c = c.cap - 1 ∧
        t.responses = s.responses ++
          [{ port := .prod k, rsp := .noItem }, { port := .cons k, rsp := .item y }])

/-- R89: a push and a pop arrive together on an empty buffer. Pop first: the pop is answered NONE and
the item remains. Push first: the pop returns the pushed item and the buffer is empty again. The
model admits both, and in neither is the item lost or duplicated. -/
def Obligations.PushAndPopTogetherOnAnEmptyBuffer : Prop :=
  ∀ (s : State) (k : Nat) (c : RingConfig) (r : RingBuf) (x : Item),
    s.config.accepted = true → s.held = [] → HasRing s k c r → r.isEmpty = true →
    x < 2 ^ c.elemBits →
    (∃ t r', Host.Core.run Sys2Proof.core 2
        { s with arrivals := [[.cons k 0x02#8, .prod k 0x01#8 x]] } = .next t ∧
      HasRing t k c r' ∧ r'.content c = [x] ∧
      t.responses = s.responses ++
        [{ port := .cons k, rsp := .noItem }, { port := .prod k, rsp := .ack }]) ∧
    (∃ t r', Host.Core.run Sys2Proof.core 2
        { s with arrivals := [[.prod k 0x01#8 x, .cons k 0x02#8]] } = .next t ∧
      HasRing t k c r' ∧ r'.isEmpty = true ∧ r'.content c = [] ∧
      t.responses = s.responses ++
        [{ port := .prod k, rsp := .ack }, { port := .cons k, rsp := .item x }])

/-- R51: over any commands on an instance, what pops return is, in order, a part of what was in the
buffer followed by the accepted pushes (no reordering, no duplicate); and where no `RB.INIT` discards
items, nothing accepted is lost: what was there and was accepted is what was popped followed by what
is still there. -/
def Obligations.ItemsComeOutInPushOrder : Prop :=
  ∀ (s t : State) (k : Nat) (c : RingConfig) (r r' : RingBuf) (os : List RingOp)
    (vs : List Response),
    HasRing s k c r → execAll (os.map (RingOp.on k)) s = .next t →
    t.units[k]? = some { cfg := c, ring := r' } →
    (newResponses s t).map PortResponse.rsp = vs →
    List.Sublist (poppedItems vs) (r.content c ++ acceptedItems os vs) ∧
    (RingOp.init ∉ os →
      r.content c ++ acceptedItems os vs = poppedItems vs ++ r'.content c)

/-- R42: an element is opaque. A push stores all of its bits in the slot; a pop returns exactly the bits
of the slot, and through an empty buffer an element comes back as it went in. The buffer never looks
inside: whatever change `f` is made to every element, in the buffer and in the pushes, the responses
are the same but for that change to the items returned. -/
def Obligations.ElementsAreOpaque : Prop :=
  (∀ (s : State) (k : Nat) (c : RingConfig) (r : RingBuf) (x : Item),
    HasRing s k c r → r.isEmpty = true → x < 2 ^ c.elemBits →
    ∃ t, execAll [.rbPush k x, .rbPop k] s = .next t ∧
      t.responses = s.responses ++
        [{ port := .prod k, rsp := .ack }, { port := .cons k, rsp := .item x }]) ∧
  (∀ (s t : State) (k : Nat) (c : RingConfig) (r r' : RingBuf) (x : Item),
    HasRing s k c r → t.units[k]? = some { cfg := c, ring := r' } →
    (exec (.rbPush k x) s = .next t → r.full = false → r'.buf[r.head]? = some x) ∧
    (exec (.rbPop k) s = .next t → newResponses s t = [{ port := .cons k, rsp := .item x }] →
      r.buf[r.tail]? = some x)) ∧
  (∀ (s : State) (k : Nat) (c : RingConfig) (r : RingBuf) (f : Item → Item) (os : List RingOp),
    HasRing s k c r → (∀ o ∈ os, o.fits c = true) →
    (∀ x < 2 ^ c.elemBits, f x < 2 ^ c.elemBits) →
    ∃ t t', execAll (os.map (RingOp.on k)) s = .next t ∧
      execAll ((os.map (RingOp.mapItem f)).map (RingOp.on k))
        (s.setRing k { r with buf := r.buf.map f }) = .next t' ∧
      (newResponses s t').map PortResponse.rsp =
        (newResponses s t).map (fun v => v.rsp.mapItem f))

/-- R120: a push on a full buffer and a pop on an empty one are answered NONE, record no fault, and
the block goes on; the CRC unit answers ACK to every command. -/
def Obligations.FullAndEmptyAreResultsNotFaults : Prop :=
  (∀ (s : State) (k : Nat) (c : RingConfig) (r : RingBuf) (x : Item), HasRing s k c r →
    (r.full = true → x < 2 ^ c.elemBits → ∃ t, exec (.rbPush k x) s = .next t ∧
      t.faultLog = s.faultLog ∧ newResponses s t = [{ port := .prod k, rsp := .noItem }]) ∧
    (r.isEmpty = true → ∃ t, exec (.rbPop k) s = .next t ∧
      t.faultLog = s.faultLog ∧ newResponses s t = [{ port := .cons k, rsp := .noItem }])) ∧
  Response.noItem.kind = 0b01#2 ∧
  (∀ (s : State) (i : Instr), i.port = .crc → ∃ t v, exec i s = .next t ∧
    t.faultLog = s.faultLog ∧ newResponses s t = [{ port := .crc, rsp := v }] ∧
    v.kind = 0b00#2)

/-- R141: a buffer that starts empty at `head = tail = j` answers every sequence of commands as one
that starts empty at 0. -/
def Obligations.StartIndexIsUnobservable : Prop :=
  ∀ (s : State) (k : Nat) (c : RingConfig) (r : RingBuf) (j : Nat) (is : List Instr),
    HasRing s k c r → r.head = 0 → r.tail = 0 → r.full = false → j < c.cap →
    shown (execAll is (s.setRing k { r with head := j, tail := j })) = shown (execAll is s)

/-- R142 (and the second sentence of R28): what the slots that hold no unpopped item contain can be
changed at will, and no response to any sequence of commands changes. After reset no slot holds an
unpopped item, so no response depends on what the slots contain then. -/
def Obligations.UnoccupiedSlotsAreUnobservable : Prop :=
  (∀ (s : State) (k : Nat) (c : RingConfig) (r r' : RingBuf) (is : List Instr),
    HasRing s k c r → RingWf c r' → r'.head = r.head → r'.tail = r.tail → r'.full = r.full →
    (∀ i, r.occupied c i → r'.buf[i]? = r.buf[i]?) →
    shown (execAll is (s.setRing k r')) = shown (execAll is s)) ∧
  (∀ (c : RingConfig) (i : Nat), ¬(RingBuf.reset c).occupied c i)

/-- R147: what a status tells. A count of `n` guarantees the consumer's next `n` pops, whatever the
other agents do meanwhile, unless the consumer itself issues `RB.INIT`. `FULL = 0` guarantees no push:
there are pushes that come first and leave no room. A push answered NONE found the buffer full. -/
def Obligations.StaleStatusStillBoundsThePops : Prop :=
  (∀ (s t : State) (k : Nat) (c : RingConfig) (r : RingBuf) (is : List Instr),
    HasRing s k c r → Instr.rbInit k ∉ is → popsOn k is ≤ r.count c →
    execAll is s = .next t →
    ({ port := .cons k, rsp := .noItem } : PortResponse) ∉ newResponses s t) ∧
  (∀ (s : State) (k : Nat) (c : RingConfig) (r : RingBuf) (x : Item),
    HasRing s k c r → r.full = false → x < 2 ^ c.elemBits →
    ∃ (xs : List Item) (t : State), execAll (xs.map (Instr.rbPush k)) s = .next t ∧
      exec (.rbPush k x) t = .next (t.respond (.prod k) .noItem)) ∧
  (∀ (s t : State) (k : Nat) (c : RingConfig) (r : RingBuf) (x : Item),
    HasRing s k c r → exec (.rbPush k x) s = .next t →
    (newResponses s t = [{ port := .prod k, rsp := .noItem }] ↔ r.full = true))

/-- R72 and R150, on the model's drain relation (log 21): a drain ends only when its last pop finds the
buffer empty, the producer having paused. From any sound buffer a drain exists that ends, with the
buffer's whole content in order; but no number bounds the pops of a drain, and from a buffer that is not
empty there is an infinite run in which the drain never ends. -/
def Obligations.DrainEndsOnlyWhenTheProducerPauses : Prop :=
  ∀ (s : State) (k : Nat) (c : RingConfig) (r : RingBuf), HasRing s k c r →
    (∀ (xs : List Item) (u t : State), DrainSoFar k s xs u → exec (.rbPop k) u = .next t →
      t.responses = u.responses ++ [{ port := .cons k, rsp := .noItem }] →
      ∃ r', HasRing u k c r' ∧ r'.content c = [] ∧ t.units = u.units) ∧
    (∃ t, Drains k s (r.content c) t) ∧
    (r.content c ≠ [] → ∀ n, ∃ xs t, xs.length = n ∧ DrainSoFar k s xs t) ∧
    (r.content c ≠ [] → ∃ rs ss, DrainsForever k s rs ss)

/-- R149, with I10 and I11 of 93_implementation_defined.md: from a sound state every infinite sequence of
commands that can stand on their ports is an infinite run, the only one of that sequence; its finite
beginnings are the finite runs; it is clean throughout exactly when it starts clean and every command
decodes. The same at the ports, where the agents present more at every step. A consumer that polls an
empty buffer whose producer never pushes is answered NONE for ever. Sequences stand beside State
(log 23). -/
def Obligations.RunsMayBeInfinite : Prop :=
  (∀ (s : State) (rs : Nat → Request), Inv s → (∀ n, (rs n).wellFormed s.config = true) →
    ∃ ss, InfiniteRun s rs ss ∧ (∀ ss', InfiniteRun s rs ss' → ss' = ss) ∧
      (∀ n, serveAll ((List.range n).map rs) s = .next (ss n)) ∧
      ((∀ n, (ss n).clean) ↔ s.clean ∧ ∀ n, ∃ i, decode (rs n) = .ok i)) ∧
  (∀ (s : State) (now : Nat → List Request), Inv s →
    (∀ n, ∀ r ∈ now n, r.wellFormed s.config = true) →
    ∃ ss, InfinitePortRun s now ss ∧ (∀ ss', InfinitePortRun s now ss' → ss' = ss) ∧
      ∀ n, Inv (ss n)) ∧
  (∀ (s : State) (k : Nat) (c : RingConfig) (r : RingBuf), HasRing s k c r → r.isEmpty = true →
    ∃ ss, InfiniteRun s (fun _ => encode (.rbPop k)) ss ∧ ∀ n, SameUnits s (ss n) ∧
      (ss (n + 1)).responses = (ss n).responses ++ [{ port := .cons k, rsp := .noItem }])

/-! ### The CRC unit -/

/-- R104: `CRC.INIT` sets `acc` to 0xFFFF and answers ACK; twice is as once; `CRC.FINAL` then returns
0x0000; the word is WRONG_PORT on the other ports. -/
def Obligations.CrcInitStartsAComputation : Prop :=
  (∀ s : State,
    exec .crcInit s = .next (State.respond { s with acc := 0xFFFF#16 } .crc .ack) ∧
    ∃ t, execAll [.crcInit, .crcInit, .crcFinal] s = .next t ∧ t.acc = 0xFFFF#16 ∧
      newResponses s t = [{ port := .crc, rsp := .ack }, { port := .crc, rsp := .ack },
        { port := .crc, rsp := .crc 0x0000#16 }]) ∧
  (∀ k d b, decode (.crc 0x40#8 b) = .ok .crcInit ∧
    decode (.prod k 0x40#8 d) = .error .wrongPort ∧ decode (.cons k 0x40#8) = .error .wrongPort)

/-- R105: `CRC.UPDATE b` folds one byte into `acc` by `crc_step` and answers ACK, for every byte and
every accumulator; the corner values; the word is WRONG_PORT on the other ports. -/
def Obligations.CrcUpdateFoldsOneByte : Prop :=
  (∀ (s : State) (b : Byte),
    exec (.crcUpdate b) s =
      .next (State.respond { s with acc := crcStep s.acc b } .crc .ack)) ∧
  crcStep 0xFFFF#16 0xFF#8 = 0x00FF#16 ∧ crcStep 0x00FF#16 0xFF#8 = 0x0000#16 ∧
  crcStep 0x0000#16 0x00#8 = 0x0000#16 ∧ crcStep 0xFFFF#16 0x00#8 = 0x0F87#16 ∧
  (∀ cs, (State.resetOf cs).acc = 0xFFFF#16) ∧
  (∀ k d b, decode (.crc 0x41#8 b) = .ok (.crcUpdate b) ∧
    decode (.prod k 0x41#8 d) = .error .wrongPort ∧ decode (.cons k 0x41#8) = .error .wrongPort)

/-- R106: `CRC.FINAL` answers ACK with the complement of `acc`, its two bytes exchanged, on
`RSP_DATA[15:0]`; no state is written, so an update after it continues; the word is WRONG_PORT on the
other ports. -/
def Obligations.CrcFinalReturnsTheChecksum : Prop :=
  (∀ s : State, ∃ v : Word16,
    exec .crcFinal s = .next (s.respond .crc (.crc v)) ∧
    (∀ j < 8, v.getLsbD j = !(s.acc.getLsbD (j + 8)) ∧ v.getLsbD (j + 8) = !(s.acc.getLsbD j)) ∧
    (∀ c, (Response.crc v).data c = some { width := 16, value := v.toNat }) ∧
    (Response.crc v).kind = 0b00#2) ∧
  (∀ (s : State) (b : Byte), ∃ t, execAll [.crcFinal, .crcUpdate b] s = .next t ∧
    t.acc = crcStep s.acc b) ∧
  crcFinal 0xFFFF#16 = 0x0000#16 ∧ crcFinal 0x6F91#16 = 0x6E90#16 ∧
  (∀ k d b, decode (.crc 0x42#8 b) = .ok .crcFinal ∧
    decode (.prod k 0x42#8 d) = .error .wrongPort ∧ decode (.cons k 0x42#8) = .error .wrongPort)

/-- Frame of the CRC commands (10_state.md R30, R34): they leave every ring, the fault log and the
ports unchanged, and `CRC.FINAL` leaves `acc`. -/
def Obligations.CrcCommandsFrame : Prop :=
  ∀ (i : Instr) (s t : State), i.port = .crc → exec i s = .next t →
    t.units = s.units ∧ t.faultLog = s.faultLog ∧ t.held = s.held ∧ t.arrivals = s.arrivals ∧
    (i = .crcFinal → t.acc = s.acc)

/-- R43: the CRC takes each byte least significant bit first: `crc_step` is the bit-serial step over
the bits 0 to 7 of the byte, in that order, for every accumulator and byte. -/
def Obligations.CrcTakesBitsLowFirst : Prop :=
  ∀ (a : Word16) (b : Byte), crcStep a b = crcSerialStep a b

/-- R107: the zero-length checksum is 0x0000, in the function and in the block. -/
def Obligations.ZeroLengthChecksumIsZero : Prop :=
  crc16 [] = 0x0000#16 ∧ crc16 [] = crcFinal 0xFFFF#16 ∧
  ∀ s : State, ∃ t, execAll [.crcInit, .crcFinal] s = .next t ∧
    t.responses = s.responses ++
      [{ port := .crc, rsp := .ack }, { port := .crc, rsp := .crc 0x0000#16 }]

/-- R71: the commands of the pseudo-command `CRC16` complete from every state, and the last response
is `crc16` of the bytes (R103). -/
def Obligations.Crc16PseudoCommandReturnsTheChecksum : Prop :=
  (∀ (s : State) (ds : List Byte), ∃ t, execAll (crc16Commands ds) s = .next t ∧
    newResponses s t = List.replicate (ds.length + 1) { port := .crc, rsp := .ack } ++
      [{ port := .crc, rsp := .crc (crcFinal (ds.foldl crcStep 0xFFFF#16)) }]) ∧
  (∀ ds, crc16 ds = crcFinal (ds.foldl crcStep 0xFFFF#16)) ∧
  crc16Commands [] = [.crcInit, .crcFinal] ∧
  (∀ b0 b1, crc16Commands [b0, b1] =
    [.crcInit, .crcUpdate b0, .crcUpdate b1, .crcFinal])

/-- R110: after `CRC.INIT` and any commands of any unit, `CRC.FINAL` returns the checksum of the bytes
given to `CRC.UPDATE` since the last `CRC.INIT`, `CRC.FINAL` commands in between or not. -/
def Obligations.StreamedChecksum : Prop :=
  ∀ (s t : State) (is : List Instr), execAll (.crcInit :: is) s = .next t →
    exec .crcFinal t = .next (t.respond .crc (.crc (crc16 (bytesSinceInit is []))))

/-- R111: what `CRC.FINAL` returns depends only on the bytes given since the last `CRC.INIT`, or since
reset: two runs from reset, in any two configurations and with any other commands, that gave the same
bytes return the same. -/
def Obligations.ChecksumDependsOnlyOnTheBytes : Prop :=
  ∀ (cs cs' : Config) (is is' : List Instr) (t t' : State),
    execAll is (State.resetOf cs) = .next t → execAll is' (State.resetOf cs') = .next t' →
    bytesSinceInit is [] = bytesSinceInit is' [] →
    ∃ v, exec .crcFinal t = .next (t.respond .crc (.crc v)) ∧
      exec .crcFinal t' = .next (t'.respond .crc (.crc v))

/-- R112: changing any one byte of any message changes its checksum. -/
def Obligations.SingleByteChangeIsDetected : Prop :=
  ∀ (m : List Byte) (i : Nat) (v : Byte) (h : i < m.length), v ≠ m[i] →
    crc16 (m.set i v) ≠ crc16 m

/-- R44: the CRC field goes on the wire with `(~acc)[15:8]` first and `(~acc)[7:0]` second. -/
def Obligations.ChecksumOnTheWire : Prop :=
  ∀ a : Word16,
    littleEndian16 (crcFinal a) = [(crcFinal a).extractLsb' 0 8, (crcFinal a).extractLsb' 8 8] ∧
    littleEndian16 (crcFinal a) = [(~~~a).extractLsb' 8 8, (~~~a).extractLsb' 0 8]

/-- R113, with R44 and R112, which the spec marks as derived: the bytes given to the CRC unit are, in
order, the length byte, the four bytes of the packet id, the four of the timestamp (each field
little-endian, R44) and the records, without the sync byte and the CRC field, and the result is appended
little-endian; changing any one covered byte then shows as a CRC field that does not match (R112). -/
def Obligations.PacketCarriesItsChecksum : Prop :=
  (∀ (sync : Byte) (p : Packet),
    p.covered = p.length ::
      ([p.packetId.extractLsb' 0 8, p.packetId.extractLsb' 8 8, p.packetId.extractLsb' 16 8,
        p.packetId.extractLsb' 24 8, p.timestamp.extractLsb' 0 8, p.timestamp.extractLsb' 8 8,
        p.timestamp.extractLsb' 16 8, p.timestamp.extractLsb' 24 8] ++ p.records) ∧
    ∀ s : State, ∃ t r, execAll (crc16Commands p.covered) s = .next t ∧
      t.responses.getLast? = some { port := .crc, rsp := .crc r } ∧
      p.wire sync = [sync] ++ p.covered ++ [r.extractLsb' 0 8, r.extractLsb' 8 8]) ∧
  (∀ (p : Packet) (i : Nat) (v : Byte) (h : i < p.covered.length), v ≠ p.covered[i] →
    littleEndian16 (crc16 (p.covered.set i v)) ≠ littleEndian16 (crc16 p.covered))

/-! ### The whole block -/

/-- Every command that can be issued to a sound block completes: `exec` answers a next state for each
of the seven (60_exceptions.md R120, 20_memory.md R53). -/
def Obligations.EveryCommandCompletes : Prop :=
  ∀ (s : State) (i : Instr), Inv s → i.wellFormed s.config = true → ∃ t, exec i s = .next t

/-- The headline invariant (10_state.md R21, R22, R24, R25; 20_memory.md R57): every step keeps a sound
state sound. -/
def Obligations.StepKeepsTheStateSound : Prop :=
  ∀ (s t : State), Inv s → step s = .next t → Inv t

/-- Reset is sound, in every accepted configuration and in the standard one. -/
def Obligations.ResetIsSound : Prop :=
  (∀ cs : Config, cs.accepted = true → Inv (State.resetOf cs)) ∧ Inv State.reset

/-- 60_exceptions.md R123, R120: a sound block never halts or locks up. Every step answers a next state,
faults, full and empty buffers included. -/
def Obligations.SoundBlockNeverStops : Prop :=
  ∀ s : State, Inv s → ∃ t, step s = .next t

/-- R35: no command, and no step, changes `CAP` or `ELEM_BITS`. -/
def Obligations.ParametersNeverChange : Prop :=
  (∀ (i : Instr) (s t : State), exec i s = .next t → t.config = s.config) ∧
  (∀ (s t : State), step s = .next t → t.config = s.config)

/-- R34: a command on one instance reads and writes only that instance, and a CRC command only `acc`:
where two states agree on the unit a command addresses, the command gives the same response and the
same new state of that unit, and it changes no other. -/
def Obligations.UnitsShareNoState : Prop :=
  (∀ (o : RingOp) (k : Nat) (s s' t : State), exec (o.on k) s = .next t →
    s'.units[k]? = s.units[k]? →
    ∃ t', exec (o.on k) s' = .next t' ∧ t'.units[k]? = t.units[k]? ∧
      newResponses s' t' = newResponses s t ∧ t'.acc = s'.acc ∧
      ∀ j, j ≠ k → t'.units[j]? = s'.units[j]?) ∧
  (∀ (i : Instr) (s s' t : State), i.port = .crc → exec i s = .next t → s'.acc = s.acc →
    ∃ t', exec i s' = .next t' ∧ t'.acc = t.acc ∧ newResponses s' t' = newResponses s t ∧
      t'.units = s'.units)

/-- R59: two commands on different units give the same units and the same responses on every port in
either order. -/
def Obligations.CommandsOnDifferentUnitsCommute : Prop :=
  ∀ (i j : Instr) (s t : State), i.port.sameUnit j.port = false →
    execAll [i, j] s = .next t →
    ∃ t', execAll [j, i] s = .next t' ∧ SameUnits t t' ∧ t'.faultLog = t.faultLog ∧
      ∀ p, t'.responses.filter (fun v => decide (v.port = p)) =
        t.responses.filter (fun v => decide (v.port = p))

/-- 20_memory.md R49, its third and fourth points: `RB.INIT`, `CRC.INIT`, `RB.STATUS` and `CRC.FINAL`
repeated at once give the same response and the same state, and the last two have no side effect. -/
def Obligations.IdempotentCommands : Prop :=
  ∀ (i : Instr) (s t : State) (k : Nat),
    i ∈ [Instr.rbInit k, .crcInit, .rbStatus k, .crcFinal] → exec i s = .next t →
    (∃ u, exec i t = .next u ∧ SameUnits t u ∧ newResponses t u = newResponses s t) ∧
    (i ∈ [Instr.rbStatus k, .crcFinal] → SameUnits s t)

/-- 10_state.md R36: the fault log only grows, by at most one record a step, and no command reads it. -/
def Obligations.FaultLogIsAppendOnlyAndUnread : Prop :=
  (∀ (s t : State), step s = .next t →
    ∃ l, t.faultLog = s.faultLog ++ l ∧ l.length ≤ 1) ∧
  (∀ (s t : State) (l : List FaultRecord), step s = .next t →
    ∃ t', step { s with faultLog := l } = .next t' ∧ SameUnits t t' ∧
      t'.responses = t.responses ∧ t'.held = t.held ∧ t'.arrivals = t.arrivals)

/-- 30_encoding.md R65: a step that serves a command gives exactly one response, on the command's port,
never of kind 0b11, and of the form the table of R65 gives the command. -/
def Obligations.OneResponsePerCommand : Prop :=
  ∀ (s t : State) (r : Request) (rest : List Request),
    (present s).held = r :: rest → step s = .next t →
    ∃ v, t.responses = s.responses ++ [{ port := r.port, rsp := v }] ∧ v.kind ≠ 0b11#2 ∧
      (∀ c, decode r = .error c → v = .fault c) ∧
      (∀ k, decode r = .ok (.rbInit k) → v = .ack) ∧
      (∀ k x, decode r = .ok (.rbPush k x) → v = .ack ∨ v = .noItem) ∧
      (∀ k, decode r = .ok (.rbPop k) → v = .noItem ∨ ∃ x, v = .item x) ∧
      (∀ k, decode r = .ok (.rbStatus k) → ∃ w, v = .status w) ∧
      (decode r = .ok .crcInit → v = .ack) ∧
      (∀ b, decode r = .ok (.crcUpdate b) → v = .ack) ∧
      (decode r = .ok .crcFinal → ∃ w, v = .crc w)

/-- 20_memory.md R53, with the model's order of service (log 5, log 18): a command waits at most for one
command of its own unit, nothing that arrives later overtakes it, and after as many steps as there are
commands before it, it is the one taken next. -/
def Obligations.WaitingCommandIsServedInTurn : Prop :=
  ∀ (s : State) (before after : List Request) (r : Request), Inv s →
    s.held = before ++ r :: after →
    (before.filter (fun q => q.port.sameUnit r.port)).length ≤ 1 ∧
    ∃ t later, Host.Core.run Sys2Proof.core before.length s = .next t ∧
      t.held = r :: (after ++ later)

/-- 20_memory.md R50: no command is lost by the arbitration. A step either serves one of the commands
presented or to be presented and keeps all the others, those of each port in their order, or finds
none presented and keeps them all. -/
def Obligations.CommandsAreNeverLost : Prop :=
  ∀ (s t : State), step s = .next t →
    (∃ r v, List.Perm s.outstanding (r :: t.outstanding) ∧
      (∀ p, s.outstanding.filter (fun q => decide (q.port = p)) =
        (r :: t.outstanding).filter (fun q => decide (q.port = p))) ∧
      t.responses = s.responses ++ [{ port := r.port, rsp := v }]) ∨
    ((present s).held = [] ∧ t.outstanding = s.outstanding ∧ t.responses = s.responses ∧
      SameUnits s t ∧ t.faultLog = s.faultLog)

/-- R58 refuses a configuration with more than one producer or consumer on an instance. The model also
refuses one with none (DEDUCED from R56, log 9), with `CAP` out of the bounds of 00_scope.md R5
(92_eei_decisions.md D17), and one without any instance (DEDUCED from R8, log 9): none of these has a
step. -/
def Obligations.UnacceptedConfigurationIsRefused : Prop :=
  (∀ (s : State) (u : RingUnit), u ∈ s.units →
    (u.cfg.producers ≠ 1 ∨ u.cfg.consumers ≠ 1 ∨ u.cfg.cap = 0 ∨ 2 ^ 30 - 1 < u.cfg.cap) →
    step s = .refused .configuration) ∧
  (∀ s : State, s.units = [] → step s = .refused .configuration)

/-- R140: after reset, in every accepted configuration, every `head`, `tail` and `full` is 0, `acc` is
0xFFFF and the fault log is empty; `buf` may hold anything, and no response to any sequence of commands
tells what; `RB.STATUS` returns 0x00000001 and `CRC.FINAL` returns 0x0000. -/
def Obligations.ResetState : Prop :=
  ∀ (cs : Config),
    (State.resetOf cs).config = cs ∧
    (∀ u ∈ (State.resetOf cs).units,
      u.ring.head = 0 ∧ u.ring.tail = 0 ∧ u.ring.full = false) ∧
    (State.resetOf cs).acc = 0xFFFF#16 ∧ (State.resetOf cs).faultLog = [] ∧
    (cs.accepted = true → ∀ (k : Nat) (c : RingConfig) (b : List Item) (is : List Instr),
      cs[k]? = some c → StorageWf c { RingBuf.reset c with buf := b } →
      shown (execAll is ((State.resetOf cs).setRing k { RingBuf.reset c with buf := b })) =
        shown (execAll is (State.resetOf cs))) ∧
    (cs.accepted = true → ∀ k < cs.length,
      exec (.rbStatus k) (State.resetOf cs) =
        .next ((State.resetOf cs).respond (.cons k) (.status 0x00000001#32))) ∧
    exec .crcFinal (State.resetOf cs) =
      .next ((State.resetOf cs).respond .crc (.crc 0x0000#16))

/-- R143: `RB.INIT` puts one instance into its reset state and leaves `buf`, the other instances, `acc`
and the fault log; `CRC.INIT` puts `acc` into its reset state and touches nothing else; a whole-block
reset is `RB.INIT` on every instance, `CRC.INIT` and an empty fault log. -/
def Obligations.WholeBlockResetIsEveryInit : Prop :=
  (∀ (s : State) (k : Nat) (c : RingConfig) (r : RingBuf),
    s.units[k]? = some { cfg := c, ring := r } → c.accepted = true →
    exec (.rbInit k) s =
      .next ((s.setRing k { RingBuf.reset c with buf := r.buf }).respond (.cons k) .ack)) ∧
  (∀ (s : State) (cs : Config), exec .crcInit s =
    .next (State.respond { s with acc := (State.resetOf cs).acc } .crc .ack)) ∧
  (∀ s : State, s.config.accepted = true →
    ∃ t, execAll ((List.range s.units.length).map Instr.rbInit ++ [.crcInit]) s = .next t ∧
      t.acc = (State.resetOf s.config).acc ∧ t.faultLog = s.faultLog ∧
      (State.resetOf s.config).faultLog = [] ∧
      t.units.map (fun u => (u.cfg, u.ring.head, u.ring.tail, u.ring.full)) =
        (State.resetOf s.config).units.map
          (fun u => (u.cfg, u.ring.head, u.ring.tail, u.ring.full)) ∧
      t.units.map (fun u => u.ring.buf) = s.units.map (fun u => u.ring.buf))

/-- R70: what a line assembles to. (1) Whatever it is, it can be issued to the block: its instance exists
and its operand fits. (2) A line `<unit>.PUSH w` with a literal of value `x` gives the push of `x` on the
instance the unit addresses where `x` fits in its `ELEM_BITS` bits, and is refused otherwise; the lines
without an operand give their commands. (3) The same for the CRC unit, with 8 bits. (4) Every number,
written decimal, after `0x` in hexadecimal or after `0b` in binary, is a literal of that value. The unit
that `RB` names and the blanks are the model's choice (log 20). -/
def Obligations.AssembledCommandsAreWellFormed : Prop :=
  (∀ (names : List (List Char)) (cs : Config) (line : List Char) (i : Instr),
    cs ≠ [] → names.length ≤ cs.length → assembleLine names cs line = .ok (some i) →
    i.wellFormed cs = true) ∧
  (∀ (names : List (List Char)) (cs : Config) (unit gap e : List Char) (k : Nat),
    AddressesRing names unit k → gap ≠ [] → (∀ c ∈ gap, c = ' ' ∨ c = '\t') → LineEnd e →
    (∀ w x, literalValue w = some x →
      assembleLine names cs (unit ++ ['.', 'P', 'U', 'S', 'H'] ++ gap ++ w ++ e) =
        if cs.fits k x then .ok (some (.rbPush k x)) else .error .literalTooWide) ∧
    assembleLine names cs (unit ++ ['.', 'I', 'N', 'I', 'T'] ++ e) = .ok (some (.rbInit k)) ∧
    assembleLine names cs (unit ++ ['.', 'P', 'O', 'P'] ++ e) = .ok (some (.rbPop k)) ∧
    assembleLine names cs (unit ++ ['.', 'S', 'T', 'A', 'T', 'U', 'S'] ++ e) =
      .ok (some (.rbStatus k))) ∧
  (∀ (names : List (List Char)) (cs : Config) (gap e : List Char),
    gap ≠ [] → (∀ c ∈ gap, c = ' ' ∨ c = '\t') → LineEnd e →
    (∀ w x, literalValue w = some x →
      assembleLine names cs (['C', 'R', 'C', '.', 'U', 'P', 'D', 'A', 'T', 'E'] ++ gap ++ w ++ e) =
        if x < 256 then .ok (some (.crcUpdate (BitVec.ofNat 8 x))) else .error .literalTooWide) ∧
    assembleLine names cs (['C', 'R', 'C', '.', 'I', 'N', 'I', 'T'] ++ e) = .ok (some .crcInit) ∧
    assembleLine names cs (['C', 'R', 'C', '.', 'F', 'I', 'N', 'A', 'L'] ++ e) =
      .ok (some .crcFinal)) ∧
  (∀ x : Nat, literalValue (Nat.toDigits 10 x) = some x ∧
    literalValue ('0' :: 'x' :: Nat.toDigits 16 x) = some x ∧
    literalValue ('0' :: 'b' :: Nat.toDigits 2 x) = some x)
end

