-- ==== Sys2Proof/Laws/Assembler.lean ====
section
/-! SUPPORT. What the parts of the assembler can do: literals, words, units. -/

namespace Sys2Proof.Machine

/-- A character that neither separates words nor starts a comment. -/
abbrev IsWordChar (c : Char) : Prop := c ≠ ';' ∧ isBlank c = false

theorem isBlank_eq_true {c : Char} : isBlank c = true ↔ c = ' ' ∨ c = '\t' := by simp [isBlank]

theorem isWordChar_of_digitValue {c : Char} {d : Nat} (h : digitValue c = some d) : IsWordChar c := by
  refine ⟨?_, Bool.eq_false_iff.2 fun hb => ?_⟩
  · rintro rfl
    simp [show digitValue ';' = none by decide] at h
  · obtain rfl | rfl := isBlank_eq_true.1 hb
    · simp [show digitValue ' ' = none by decide] at h
    · simp [show digitValue '\t' = none by decide] at h

theorem digitsValue_append {base : Nat} (l m : List Char) : ∀ n, digitsValue base n (l ++ m) =
    (digitsValue base n l).bind (fun v => digitsValue base v m) := by
  induction l with
  | nil => exact fun _ => rfl
  | cons c l ih =>
    intro n
    simp only [List.cons_append, digitsValue]
    split
    · rfl
    · split
      · exact ih _
      · rfl

theorem digitsValue_wordChars {base x : Nat} (l : List Char) :
    ∀ {n}, digitsValue base n l = some x → ∀ c ∈ l, IsWordChar c := by
  induction l with
  | nil => simp
  | cons a l ih =>
    intro n h
    simp only [digitsValue] at h
    split at h
    · simp at h
    · rename_i d hd
      split at h
      · exact List.forall_mem_cons.2 ⟨isWordChar_of_digitValue hd, ih h⟩
      · simp at h

theorem numberValue_wordChars {base x : Nat} {w : List Char} (h : numberValue base w = some x) :
    w ≠ [] ∧ ∀ c ∈ w, IsWordChar c := by
  cases w with
  | nil => simp [numberValue] at h
  | cons a l => exact ⟨by simp, digitsValue_wordChars _ h⟩

/-- A literal is one word: it is not empty and holds no blank and no `;`. -/
theorem literalValue_wordChars {w : List Char} {x : Nat} (h : literalValue w = some x) :
    w ≠ [] ∧ ∀ c ∈ w, IsWordChar c := by
  have cons2 : ∀ {a b : Char} {l}, IsWordChar a → IsWordChar b → (∀ c ∈ l, IsWordChar c) →
      ∀ c ∈ a :: b :: l, IsWordChar c := fun ha hb hl =>
    List.forall_mem_cons.2 ⟨ha, List.forall_mem_cons.2 ⟨hb, hl⟩⟩
  unfold literalValue at h
  split at h
  · exact ⟨by simp, cons2 (by decide) (by decide) (numberValue_wordChars h).2⟩
  · exact ⟨by simp, cons2 (by decide) (by decide) (numberValue_wordChars h).2⟩
  · exact numberValue_wordChars h

@[simp] theorem wordSoFar_of_ne_nil {w : List Char} (h : w ≠ []) : wordSoFar w = [w] := by
  cases w with
  | nil => exact absurd rfl h
  | cons c l => rfl

/-- Characters that are no blanks are read onto the word. -/
theorem splitWords_word (w : List Char) (hw : ∀ c ∈ w, isBlank c = false) :
    ∀ acc rest, splitWords acc (w ++ rest) = splitWords (acc ++ w) rest := by
  induction w with
  | nil => simp
  | cons a w ih =>
    intro acc rest
    obtain ⟨ha, hw⟩ := List.forall_mem_cons.1 hw
    simp [splitWords, ha, ih hw]

/-- Blanks before a word are skipped. -/
theorem splitWords_blanks (b : List Char) (hb : ∀ c ∈ b, isBlank c = true) (rest : List Char) :
    splitWords [] (b ++ rest) = splitWords [] rest := by
  induction b with
  | nil => rfl
  | cons a b ih =>
    obtain ⟨ha, hb⟩ := List.forall_mem_cons.1 hb
    simp [splitWords, ha, wordSoFar, ih hb]

/-- A blank ends a word. -/
theorem splitWords_gap {w b rest : List Char} (hw : w ≠ []) (hne : b ≠ [])
    (hb : ∀ c ∈ b, isBlank c = true) : splitWords w (b ++ rest) = w :: splitWords [] rest := by
  cases b with
  | nil => exact absurd rfl hne
  | cons a b =>
    obtain ⟨ha, hb⟩ := List.forall_mem_cons.1 hb
    simp [splitWords, ha, hw, splitWords_blanks b hb]

/-- The word at the end of a line, blanks after it or not. -/
theorem splitWords_last {w b : List Char} (hw : w ≠ []) (hb : ∀ c ∈ b, isBlank c = true) :
    splitWords w b = [w] := by
  by_cases hne : b = []
  · simp [hne, splitWords, hw]
  · simpa [splitWords, wordSoFar] using splitWords_gap (rest := []) hw hne hb

/-- What stands before a comment is what is read. -/
theorem takeWhile_comment {l comment : List Char} (hl : ∀ c ∈ l, c ≠ ';')
    (hc : comment = [] ∨ ∃ text, comment = ';' :: text) :
    (l ++ comment).takeWhile (fun c => decide (c ≠ ';')) = l := by
  rw [List.takeWhile_append_of_pos (by simpa using hl)]
  obtain rfl | ⟨text, rfl⟩ := hc <;> simp

/-- A unit that addresses an instance is read as that instance. -/
theorem targetOf_addressesRing {names : List (List Char)} {unit : List Char} {k : Nat}
    (h : AddressesRing names unit k) : targetOf names unit = some (.ring k) := by
  obtain ⟨rfl, rfl⟩ | ⟨hk, first, hRb, hCrc, -⟩ := h
  · rfl
  · obtain ⟨hlt, hget⟩ := List.getElem?_eq_some_iff.1 hk
    have : names.findIdx? (fun n => decide (n = unit)) = some k := by
      rw [List.findIdx?_eq_some_iff_getElem]
      refine ⟨hlt, by simp [hget], fun j hj => ?_⟩
      have := first j hj
      rw [List.getElem?_eq_getElem (by omega)] at this
      simpa using this
    simp [targetOf, hRb, hCrc, this]

end Sys2Proof.Machine
end

