-- ==== Sys2Proof/Laws/Decode.lean ====
section
/-! SUPPORT. The seven words and their mnemonics. -/

namespace Sys2Proof

@[simp] theorem mnemonicOf_rbInit : mnemonicOf 0x00#8 = .ok .rbInit := by decide
@[simp] theorem mnemonicOf_rbPush : mnemonicOf 0x01#8 = .ok .rbPush := by decide
@[simp] theorem mnemonicOf_rbPop : mnemonicOf 0x02#8 = .ok .rbPop := by decide
@[simp] theorem mnemonicOf_rbStatus : mnemonicOf 0x03#8 = .ok .rbStatus := by decide
@[simp] theorem mnemonicOf_crcInit : mnemonicOf 0x40#8 = .ok .crcInit := by decide
@[simp] theorem mnemonicOf_crcUpdate : mnemonicOf 0x41#8 = .ok .crcUpdate := by decide
@[simp] theorem mnemonicOf_crcFinal : mnemonicOf 0x42#8 = .ok .crcFinal := by decide

@[simp] theorem word_rbInit (k : Nat) : (Instr.rbInit k).word = 0x00#8 := rfl
@[simp] theorem word_rbPush (k : Nat) (x : Item) : (Instr.rbPush k x).word = 0x01#8 := rfl
@[simp] theorem word_rbPop (k : Nat) : (Instr.rbPop k).word = 0x02#8 := rfl
@[simp] theorem word_rbStatus (k : Nat) : (Instr.rbStatus k).word = 0x03#8 := rfl
@[simp] theorem word_crcInit : Instr.crcInit.word = 0x40#8 := rfl
@[simp] theorem word_crcUpdate (b : Byte) : (Instr.crcUpdate b).word = 0x41#8 := rfl
@[simp] theorem word_crcFinal : Instr.crcFinal.word = 0x42#8 := rfl

/-- The word of a mnemonic (30_encoding.md R62). -/
def Mnemonic.word : Mnemonic → Byte
  | .rbInit => 0x00#8
  | .rbPush => 0x01#8
  | .rbPop => 0x02#8
  | .rbStatus => 0x03#8
  | .crcInit => 0x40#8
  | .crcUpdate => 0x41#8
  | .crcFinal => 0x42#8

/-- The map of R62 read backwards: each mnemonic has exactly its word. -/
theorem mnemonicOf_eq_ok {w : Byte} {m : Mnemonic} : mnemonicOf w = .ok m ↔ w = m.word := by
  revert w m
  have h : ∀ n : Fin 256, ∀ m ∈ [Mnemonic.rbInit, .rbPush, .rbPop, .rbStatus, .crcInit, .crcUpdate,
      .crcFinal], mnemonicOf (BitVec.ofFin n) = .ok m ↔ BitVec.ofFin n = m.word := by
    decide +kernel
  exact fun {w m} => h w.toFin m (by cases m <;> simp)

/-- A word without a mnemonic is illegal, and nothing else is wrong with a word. -/
theorem mnemonicOf_error {w : Byte} {e : FaultCode} (h : mnemonicOf w = .error e) :
    e = .illegalCommand := by
  unfold mnemonicOf at h
  split at h
  · exact (Except.error.inj h).symm
  · split at h
    · exact absurd h (by simp)
    · exact (Except.error.inj h).symm

end Sys2Proof
end

