-- ==== Sys2Proof/Laws/State.lean ====
section
/-! SUPPORT. One lemma per field per update of the state. -/

namespace Sys2Proof.Machine

variable (s : State)

@[simp] theorem setRing_units (k : Nat) (r : RingBuf) :
    (s.setRing k r).units = s.units.modify k (fun u => { u with ring := r }) := rfl

@[simp] theorem setRing_acc (k : Nat) (r : RingBuf) :
    (s.setRing k r).acc = s.acc := rfl

@[simp] theorem setRing_faultLog (k : Nat) (r : RingBuf) :
    (s.setRing k r).faultLog = s.faultLog := rfl

@[simp] theorem setRing_responses (k : Nat) (r : RingBuf) :
    (s.setRing k r).responses = s.responses := rfl

@[simp] theorem setRing_held (k : Nat) (r : RingBuf) :
    (s.setRing k r).held = s.held := rfl

@[simp] theorem setRing_arrivals (k : Nat) (r : RingBuf) :
    (s.setRing k r).arrivals = s.arrivals := rfl

@[simp] theorem respond_units (p : Port) (v : Response) :
    (s.respond p v).units = s.units := rfl

@[simp] theorem respond_acc (p : Port) (v : Response) :
    (s.respond p v).acc = s.acc := rfl

@[simp] theorem respond_faultLog (p : Port) (v : Response) :
    (s.respond p v).faultLog = s.faultLog := rfl

@[simp] theorem respond_responses (p : Port) (v : Response) :
    (s.respond p v).responses = s.responses ++ [{ port := p, rsp := v }] := rfl

@[simp] theorem respond_held (p : Port) (v : Response) :
    (s.respond p v).held = s.held := rfl

@[simp] theorem respond_arrivals (p : Port) (v : Response) :
    (s.respond p v).arrivals = s.arrivals := rfl

@[simp] theorem raise_units (c : FaultCode) (w : Byte) (p : Port) :
    (s.raise c w p).units = s.units := rfl

@[simp] theorem raise_acc (c : FaultCode) (w : Byte) (p : Port) :
    (s.raise c w p).acc = s.acc := rfl

@[simp] theorem raise_faultLog (c : FaultCode) (w : Byte) (p : Port) :
    (s.raise c w p).faultLog = s.faultLog ++ [{ code := c, cmd := w, port := p }] := rfl

@[simp] theorem raise_responses (c : FaultCode) (w : Byte) (p : Port) :
    (s.raise c w p).responses = s.responses ++ [{ port := p, rsp := .fault c }] := rfl

@[simp] theorem raise_held (c : FaultCode) (w : Byte) (p : Port) :
    (s.raise c w p).held = s.held := rfl

@[simp] theorem raise_arrivals (c : FaultCode) (w : Byte) (p : Port) :
    (s.raise c w p).arrivals = s.arrivals := rfl

@[simp] theorem respond_config (p : Port) (v : Response) : (s.respond p v).config = s.config := rfl

@[simp] theorem raise_config (c : FaultCode) (w : Byte) (p : Port) :
    (s.raise c w p).config = s.config := rfl

/-- Replacing a ring leaves every instance's parameters (10_state.md R35). -/
@[simp] theorem setRing_config (k : Nat) (r : RingBuf) : (s.setRing k r).config = s.config := by
  refine List.ext_getElem? fun j => ?_
  simp only [State.config, setRing_units, List.getElem?_map, List.getElem?_modify]
  split <;> simp [Function.comp_def]

@[simp] theorem setRing_length (k : Nat) (r : RingBuf) :
    (s.setRing k r).units.length = s.units.length := by simp

/-- The instance that was replaced. -/
theorem setRing_get_self {k : Nat} {u : RingUnit} (h : s.units[k]? = some u) (r : RingBuf) :
    (s.setRing k r).units[k]? = some { u with ring := r } := by simp [h]

/-- Every other instance (10_state.md R34). -/
theorem setRing_get_ne {j k : Nat} (h : j ≠ k) (r : RingBuf) :
    (s.setRing k r).units[j]? = s.units[j]? := by
  simp [Ne.symm h]

/-- Replacing a ring by itself changes nothing. -/
theorem setRing_self {k : Nat} {u : RingUnit} (h : s.units[k]? = some u) :
    s.setRing k u.ring = s := by
  obtain ⟨units, acc, log, rsp, held, arr⟩ := s
  simp only [State.setRing, State.mk.injEq, and_self, and_true]
  refine List.ext_getElem? fun j => ?_
  rw [List.getElem?_modify]
  by_cases hj : k = j
  · subst hj
    have h' : units[k]? = some u := h
    simp [h']
  · simp [hj]

end Sys2Proof.Machine
end

