-- ==== Sys2Proof/Laws/Ops.lean ====
section
/-! SUPPORT. What each shared operation can do, said once. -/

namespace Sys2Proof.Machine

/-! ### Slots and indices -/

/-- A slot write that happens, happens inside the storage and changes that slot alone. -/
theorem setSlot_eq_some {r r' : RingBuf} {i : Nat} {x : Item} :
    r.setSlot i x = some r' ↔ i < r.buf.length ∧ r' = { r with buf := r.buf.set i x } := by
  unfold RingBuf.setSlot
  by_cases h : i < r.buf.length <;> simp [h, eq_comm]

/-- Every slot write keeps the form of the storage: `CAP` slots of `ELEM_BITS` bits. -/
theorem setSlot_keeps_storage {c : RingConfig} {r r' : RingBuf} {i : Nat} {x : Item}
    (hw : StorageWf c r) (hx : x < 2 ^ c.elemBits) (h : r.setSlot i x = some r') :
    StorageWf c r' := by
  obtain ⟨-, rfl⟩ := setSlot_eq_some.1 h
  refine ⟨by simpa using hw.1, fun y hy => ?_⟩
  rcases List.mem_or_eq_of_mem_set hy with h | rfl
  · exact hw.2 y h
  · exact hx

/-- The storage after reset has its form. -/
theorem reset_storage (c : RingConfig) : StorageWf c (RingBuf.reset c) := by
  refine ⟨by simp [RingBuf.reset], fun x hx => ?_⟩
  simp only [RingBuf.reset] at hx
  rw [List.eq_of_mem_replicate hx]
  exact Nat.two_pow_pos _

theorem inc_lt {c : RingConfig} (h : 0 < c.cap) (i : Nat) : inc c i < c.cap := Nat.mod_lt _ h

/-- An accepted instance has at least one slot. -/
theorem accepted_cap {c : RingConfig} (h : c.accepted = true) : 0 < c.cap ∧ c.cap < 2 ^ 30 := by
  simp [RingConfig.accepted] at h
  omega

/-! ### Executing on a unit -/

/-- All that `onRing` can do when it goes on: instance `k` exists and is accepted, its command went on,
and the state is the old one with that ring replaced and one response more. -/
theorem onRing_eq_next {k : Nat} {p : Port} {f : RingConfig → RingBuf → RingResult} {s t : State} :
    onRing k p f s = .next t ↔ ∃ u r v, s.units[k]? = some u ∧ u.cfg.accepted = true ∧
      f u.cfg u.ring = .next (r, v) ∧ t = (s.setRing k r).respond p v := by
  unfold onRing
  constructor
  · intro h
    split at h
    · simp at h
    · rename_i u hu
      split at h
      · rename_i ha
        split at h
        · rename_i r v hf
          simp only [Host.Outcome.next.injEq] at h
          exact ⟨u, r, v, hu, ha, hf, h.symm⟩
        · simp at h
        · simp at h
      · simp at h
  · rintro ⟨u, r, v, hu, ha, hf, rfl⟩
    simp [hu, ha, hf]

/-- `onRing` on an instance that exists and is accepted. -/
theorem onRing_of_unit {k : Nat} {p : Port} {f : RingConfig → RingBuf → RingResult} {s : State}
    {c : RingConfig} {r r' : RingBuf} {v : Response}
    (hu : s.units[k]? = some { cfg := c, ring := r }) (ha : c.accepted = true)
    (hf : f c r = .next (r', v)) : onRing k p f s = .next ((s.setRing k r').respond p v) :=
  onRing_eq_next.2 ⟨_, r', v, hu, ha, hf, rfl⟩

@[simp] theorem onCrc_eq_next {a : Word16} {v : Response} {s t : State} :
    onCrc a v s = .next t ↔ t = State.respond { s with acc := a } .crc v := by
  simp [onCrc, eq_comm]

/-- The command of a ring operation, on its instance's ring. -/
def ringOp : RingOp → RingConfig → RingBuf → RingResult
  | .init => ringInit
  | .push x => ringPush x
  | .pop => ringPop
  | .status => ringStatus

/-- The port of a ring operation. -/
def RingOp.port (k : Nat) : RingOp → Port
  | .init => .cons k
  | .push _ => .prod k
  | .pop => .cons k
  | .status => .cons k

/-- The four ring buffer commands are one shape. -/
theorem exec_on (k : Nat) (o : RingOp) (s : State) :
    exec (o.on k) s = onRing k (o.port k) (ringOp o) s := by
  cases o <;> rfl

/-- Every command is a ring operation on an instance, or belongs to the CRC unit. -/
theorem instr_cases (i : Instr) : (∃ k o, i = RingOp.on k o) ∨ i.port = .crc := by
  cases i with
  | rbInit k => exact .inl ⟨k, .init, rfl⟩
  | rbPush k x => exact .inl ⟨k, .push x, rfl⟩
  | rbPop k => exact .inl ⟨k, .pop, rfl⟩
  | rbStatus k => exact .inl ⟨k, .status, rfl⟩
  | crcInit => exact .inr rfl
  | crcUpdate b => exact .inr rfl
  | crcFinal => exact .inr rfl

/-- What a CRC command makes of `acc`. -/
def crcAcc : Instr → Word16 → Word16
  | .crcInit, _ => crcStart
  | .crcUpdate b, a => crcStep a b
  | .crcFinal, a => a
  | .rbInit _, a => a
  | .rbPush _ _, a => a
  | .rbPop _, a => a
  | .rbStatus _, a => a

/-- What a CRC command answers. -/
def crcAnswer : Instr → Word16 → Response
  | .crcFinal, a => .crc (crcFinal a)
  | .crcInit, _ => .ack
  | .crcUpdate _, _ => .ack
  | .rbInit _, _ => .ack
  | .rbPush _ _, _ => .ack
  | .rbPop _, _ => .ack
  | .rbStatus _, _ => .ack

/-- The three CRC commands are one shape, and always go on. -/
theorem exec_crc {i : Instr} (h : i.port = .crc) (s : State) :
    exec i s =
      .next (State.respond { s with acc := crcAcc i s.acc } .crc (crcAnswer i s.acc)) := by
  cases i <;> first | rfl | simp [Instr.port] at h

/-- Serving a request whose port exists and whose word decodes. -/
theorem serve_ok {r : Request} {i : Instr} {s : State} (hp : s.config.hasPort r.port = true)
    (hd : decode r = .ok i) : serve r s = exec i s := by
  simp [serve, hp, hd]

/-- Serving a request whose port exists and whose word faults. -/
theorem serve_error {r : Request} {c : FaultCode} {s : State}
    (hp : s.config.hasPort r.port = true) (hd : decode r = .error c) :
    serve r s = .next (s.raise c r.cmd r.port) := by
  simp [serve, hp, hd]

/-- All that serving can do when it goes on. -/
theorem serve_eq_next {r : Request} {s t : State} :
    serve r s = .next t ↔ s.config.hasPort r.port = true ∧
      ((∃ i, decode r = .ok i ∧ exec i s = .next t) ∨
        ∃ c, decode r = .error c ∧ t = s.raise c r.cmd r.port) := by
  unfold serve
  by_cases hp : s.config.hasPort r.port = true
  · cases hd : decode r <;> simp [hp, eq_comm]
  · simp [hp]

/-- All that a step can do when it goes on: nothing is held, or the first held command is served. -/
theorem step_eq_next {s t : State} :
    step s = .next t ↔ s.config.accepted = true ∧
      (((present s).held = [] ∧ t = present s) ∨
        ∃ r rest, (present s).held = r :: rest ∧
          serve r { present s with held := rest } = .next t) := by
  unfold step serveFirst
  by_cases ha : s.config.accepted = true
  · cases hh : (present s).held <;> simp [ha, eq_comm]
  · simp [ha]

end Sys2Proof.Machine
end

