-- ==== Sys2Proof/Laws/PerInstr.lean ====
section
/-! SUPPORT. Statements about every command as syntax, one lemma per constructor. -/

namespace Sys2Proof.Laws.LegalOnOnePort

open Sys2Proof

/-- The command's word names its mnemonic: on its own port it decodes to the command, and on a port of
another role it is WRONG_PORT (30_encoding.md R62, R66). -/
def Statement (i : Instr) : Prop :=
  decode (encode i) = .ok i ∧ (encode i).port = i.port ∧
    ∀ r : Request, r.cmd = i.word → r.port ≠ i.port →
      (decode r = .error .wrongPort ∨ ∃ j, decode r = .ok j ∧ j.port ≠ i.port)

theorem rbInit (k : Nat) : Statement (.rbInit k) := by
  refine ⟨by simp [decode, encode, Request.cmd], rfl, fun r hc hp => ?_⟩
  cases r <;> simp only [Request.cmd] at hc <;> subst hc
  · exact .inl (by simp [decode, Request.cmd])
  · exact .inr ⟨.rbInit _, by simp [decode, Request.cmd], hp⟩
  · exact .inl (by simp [decode, Request.cmd])

theorem rbPush (k : Nat) (x : Item) : Statement (.rbPush k x) := by
  refine ⟨by simp [decode, encode, Request.cmd], rfl, fun r hc hp => ?_⟩
  cases r <;> simp only [Request.cmd] at hc <;> subst hc
  · rename_i j d
    exact .inr ⟨.rbPush j d, by simp [decode, Request.cmd], hp⟩
  · exact .inl (by simp [decode, Request.cmd])
  · exact .inl (by simp [decode, Request.cmd])

theorem rbPop (k : Nat) : Statement (.rbPop k) := by
  refine ⟨by simp [decode, encode, Request.cmd], rfl, fun r hc hp => ?_⟩
  cases r <;> simp only [Request.cmd] at hc <;> subst hc
  · exact .inl (by simp [decode, Request.cmd])
  · exact .inr ⟨.rbPop _, by simp [decode, Request.cmd], hp⟩
  · exact .inl (by simp [decode, Request.cmd])

theorem rbStatus (k : Nat) : Statement (.rbStatus k) := by
  refine ⟨by simp [decode, encode, Request.cmd], rfl, fun r hc hp => ?_⟩
  cases r <;> simp only [Request.cmd] at hc <;> subst hc
  · exact .inl (by simp [decode, Request.cmd])
  · exact .inr ⟨.rbStatus _, by simp [decode, Request.cmd], hp⟩
  · exact .inl (by simp [decode, Request.cmd])

theorem crcInit : Statement .crcInit := by
  refine ⟨by simp [decode, encode, Request.cmd], rfl, fun r hc hp => ?_⟩
  cases r <;> simp only [Request.cmd] at hc <;> subst hc
  · exact .inl (by simp [decode, Request.cmd])
  · exact .inl (by simp [decode, Request.cmd])
  · exact absurd rfl hp

theorem crcUpdate (b : Byte) : Statement (.crcUpdate b) := by
  refine ⟨by simp [decode, encode, Request.cmd], rfl, fun r hc hp => ?_⟩
  cases r <;> simp only [Request.cmd] at hc <;> subst hc
  · exact .inl (by simp [decode, Request.cmd])
  · exact .inl (by simp [decode, Request.cmd])
  · exact absurd rfl hp

theorem crcFinal : Statement .crcFinal := by
  refine ⟨by simp [decode, encode, Request.cmd], rfl, fun r hc hp => ?_⟩
  cases r <;> simp only [Request.cmd] at hc <;> subst hc
  · exact .inl (by simp [decode, Request.cmd])
  · exact .inl (by simp [decode, Request.cmd])
  · exact absurd rfl hp

end Sys2Proof.Laws.LegalOnOnePort
end

