-- ==== Sys2Proof/Laws/Ports.lean ====
section
/-! SUPPORT. Presenting commands: what is held stays first, nothing is lost, each port keeps its
order, and a port holds at most one command. -/

namespace Sys2Proof.Machine

/-- The requests of a list that stand on port `p`. -/
def onPort (p : Port) (rs : List Request) : List Request :=
  rs.filter (fun q => decide (q.port = p))

@[simp] theorem onPort_nil (p : Port) : onPort p [] = [] := rfl

@[simp] theorem onPort_append (p : Port) (l m : List Request) :
    onPort p (l ++ m) = onPort p l ++ onPort p m := List.filter_append ..

theorem onPort_cons (p : Port) (r : Request) (l : List Request) :
    onPort p (r :: l) = if r.port = p then r :: onPort p l else onPort p l := by
  by_cases h : r.port = p <;> simp [onPort, h]

theorem portFree_iff {held : List Request} {p : Port} :
    portFree held p = true ↔ p ∉ held.map Request.port := by
  simp [portFree]

/-- What is held stays, in order, in front of what is newly held. -/
theorem presentAll_fst (rs : List Request) : ∀ held, ∃ new, (presentAll held rs).1 = held ++ new := by
  induction rs with
  | nil => exact fun held => ⟨[], by simp [presentAll]⟩
  | cons r rs ih =>
    intro held
    unfold presentAll
    split
    · obtain ⟨new, h⟩ := ih (held ++ [r])
      exact ⟨r :: new, by simp [h]⟩
    · exact ih held

/-- No request is lost or made by presenting. -/
theorem presentAll_perm (rs : List Request) : ∀ held,
    List.Perm ((presentAll held rs).1 ++ (presentAll held rs).2) (held ++ rs) := by
  induction rs with
  | nil => intro held; simp [presentAll]
  | cons r rs ih =>
    intro held
    unfold presentAll
    split
    · simpa using ih (held ++ [r])
    · exact (List.perm_middle.trans ((ih held).cons r)).trans List.perm_middle.symm

/-- A port that holds a command admits none. -/
theorem presentAll_busy {p : Port} (rs : List Request) : ∀ held, p ∈ held.map Request.port →
    onPort p (presentAll held rs).1 = onPort p held ∧
      onPort p (presentAll held rs).2 = onPort p rs := by
  induction rs with
  | nil => intro held _; simp [presentAll]
  | cons r rs ih =>
    intro held hp
    unfold presentAll
    split
    · rename_i hf
      have hne : r.port ≠ p := fun h => portFree_iff.1 hf (h ▸ hp)
      have := ih (held ++ [r]) (by simp only [List.map_append, List.mem_append]; exact .inl hp)
      simpa [onPort_cons, hne] using this
    · simp [onPort_cons, ih held hp]

/-- Each port keeps the order of its requests. -/
theorem presentAll_onPort (p : Port) (rs : List Request) : ∀ held,
    onPort p (presentAll held rs).1 ++ onPort p (presentAll held rs).2 =
      onPort p held ++ onPort p rs := by
  induction rs with
  | nil => intro held; simp [presentAll]
  | cons r rs ih =>
    intro held
    unfold presentAll
    split
    · rw [ih (held ++ [r])]
      by_cases h : r.port = p <;> simp [onPort_cons, h]
    · rename_i hf
      by_cases h : r.port = p
      · have hb : p ∈ held.map Request.port := by
          rw [← h]
          by_contra hn
          exact hf (portFree_iff.2 hn)
        have := presentAll_busy rs held hb
        simp [onPort_cons, h, this]
      · simpa [onPort_cons, h] using ih held

/-- A port holds at most one command. -/
theorem presentAll_nodup (rs : List Request) : ∀ held, (held.map Request.port).Nodup →
    ((presentAll held rs).1.map Request.port).Nodup := by
  induction rs with
  | nil => intro held h; simpa [presentAll] using h
  | cons r rs ih =>
    intro held h
    unfold presentAll
    split
    · rename_i hf
      refine ih _ ?_
      rw [List.map_append]
      refine List.nodup_append.2 ⟨h, by simp, ?_⟩
      intro a ha b hb
      simp only [List.map_cons, List.map_nil, List.mem_singleton] at hb
      rintro rfl
      exact portFree_iff.1 hf (hb ▸ ha)
    · exact ih held h

/-- A request whose port is free when nothing else came first is held. -/
theorem presentAll_cons_free {held rs : List Request} {r : Request}
    (h : r.port ∉ held.map Request.port) :
    presentAll held (r :: rs) = presentAll (held ++ [r]) rs := by
  rw [presentAll, if_pos (portFree_iff.2 h)]

@[simp] theorem defer_flatten (d : List Request) (later : List (List Request)) :
    (defer d later).flatten = d ++ later.flatten := by
  cases d <;> cases later <;> simp [defer]

section
variable (s : State)

@[simp] theorem present_units : (present s).units = s.units := by unfold present; split <;> rfl
@[simp] theorem present_acc : (present s).acc = s.acc := by unfold present; split <;> rfl
@[simp] theorem present_faultLog : (present s).faultLog = s.faultLog := by unfold present; split <;> rfl
@[simp] theorem present_responses : (present s).responses = s.responses := by
  unfold present; split <;> rfl
@[simp] theorem present_config : (present s).config = s.config := by simp [State.config]

/-- Admission keeps every request: none is lost by the arbitration (20_memory.md R50). -/
theorem present_outstanding_perm : List.Perm (present s).outstanding s.outstanding := by
  unfold present State.outstanding
  split
  · rfl
  · rename_i now later h
    simp only [defer_flatten, h, List.flatten_cons]
    simpa using (presentAll_perm now s.held).append_right later.flatten

/-- Admission keeps the order of the requests of each port. -/
theorem present_outstanding_onPort (p : Port) :
    onPort p (present s).outstanding = onPort p s.outstanding := by
  unfold present State.outstanding
  split
  · rfl
  · rename_i now later h
    simp only [defer_flatten, h, List.flatten_cons, onPort_append]
    rw [← List.append_assoc, presentAll_onPort, List.append_assoc]

/-- What is held is not overtaken. -/
theorem present_held : ∃ new, (present s).held = s.held ++ new := by
  unfold present
  split
  · exact ⟨[], by simp⟩
  · exact presentAll_fst _ _

/-- After admission too, a port holds at most one command (20_memory.md R57). -/
theorem present_nodup (h : (s.held.map Request.port).Nodup) :
    ((present s).held.map Request.port).Nodup := by
  unfold present
  split
  · exact h
  · exact presentAll_nodup _ _ h

end

end Sys2Proof.Machine
end

