-- ==== Sys2Proof/Laws/RingBuffer.lean ====
section
/-! SUPPORT. Rings: what each command makes of one, that it stays sound, its count and its content. -/

namespace Sys2Proof.Machine

variable {c : RingConfig} {r r' : RingBuf} {v : Response} {x : Item}

/-! ### What each command makes of a ring -/

/-- The ring after an accepted push (40_ring_buffer.md R81). -/
def pushed (c : RingConfig) (r : RingBuf) (x : Item) : RingBuf :=
  { buf := r.buf.set r.head x
    head := inc c r.head
    tail := r.tail
    full := if inc c r.head = r.tail then true else r.full }

/-- The ring after a pop that returned an item (R82). -/
def poppedRing (c : RingConfig) (r : RingBuf) : RingBuf :=
  { r with tail := inc c r.tail, full := false }

/-- The ring after `RB.INIT` (R80). -/
def emptied (r : RingBuf) : RingBuf := { r with head := 0, tail := 0, full := false }

/-- All that a push can do when it goes on. -/
theorem ringPush_eq_next : ringPush x c r = .next (r', v) ↔ x < 2 ^ c.elemBits ∧
    ((r.full = true ∧ r' = r ∧ v = .noItem) ∨
      (r.full = false ∧ r.head < r.buf.length ∧ r' = pushed c r x ∧ v = .ack)) := by
  unfold ringPush pushOperand
  by_cases hx : x < 2 ^ c.elemBits
  · by_cases hf : r.full = true
    · simp [hx, hf, eq_comm]
    · by_cases hl : r.head < r.buf.length
      · simp [hx, hf, hl, RingBuf.setSlot, ringAdvanceHead, RingBuf.fullAfterPush, pushed, eq_comm]
      · simp [hx, hf, hl, RingBuf.setSlot]
  · simp [hx]

/-- All that a pop can do when it goes on. -/
theorem ringPop_eq_next : ringPop c r = .next (r', v) ↔
    (r.isEmpty = true ∧ r' = r ∧ v = .noItem) ∨
      (r.isEmpty = false ∧ ∃ y, r.buf[r.tail]? = some y ∧ r' = poppedRing c r ∧ v = .item y) := by
  unfold ringPop RingBuf.slot
  by_cases he : r.isEmpty = true
  · simp [he, eq_comm]
  · cases hg : r.buf[r.tail]? <;> simp [he, poppedRing, eq_comm]

@[simp] theorem ringInit_eq_next :
    ringInit c r = .next (r', v) ↔ r' = emptied r ∧ v = .ack := by
  simp [ringInit, emptied, eq_comm]

@[simp] theorem ringStatus_eq_next :
    ringStatus c r = .next (r', v) ↔ r' = r ∧ v = .status (r.statusWord c) := by
  simp [ringStatus, eq_comm]

theorem ringEmpty_iff : r.isEmpty = true ↔ r.head = r.tail ∧ r.full = false := by
  simp [RingBuf.isEmpty]

/-! ### A sound ring stays sound -/

theorem pushed_wf (hc : 0 < c.cap) (hw : RingWf c r) (hx : x < 2 ^ c.elemBits)
    (hf : r.full = false) : RingWf c (pushed c r x) := by
  have hs : StorageWf c { r with buf := r.buf.set r.head x } :=
    setSlot_keeps_storage hw.1 hx (setSlot_eq_some.2 ⟨by rw [hw.1.1]; exact hw.2.1, rfl⟩)
  refine ⟨hs, inc_lt hc _, hw.2.2.1, ?_⟩
  · by_cases h : inc c r.head = r.tail <;> simp [pushed, h, hf]

theorem popped_wf (hc : 0 < c.cap) (hw : RingWf c r) : RingWf c (poppedRing c r) :=
  ⟨hw.1, hw.2.1, inc_lt hc _, by simp [poppedRing]⟩

theorem emptied_wf (hc : 0 < c.cap) (hw : RingWf c r) : RingWf c (emptied r) :=
  ⟨hw.1, hc, hc, by simp [emptied]⟩

theorem reset_wf (hc : 0 < c.cap) : RingWf c (RingBuf.reset c) :=
  ⟨reset_storage c, hc, hc, by simp [RingBuf.reset]⟩

/-- Every ring buffer command keeps a sound ring sound. -/
theorem ringOp_wf {o : RingOp} (hc : 0 < c.cap) (hw : RingWf c r)
    (h : ringOp o c r = .next (r', v)) : RingWf c r' := by
  cases o with
  | init => obtain ⟨rfl, -⟩ := (ringInit_eq_next (c := c)).1 h; exact emptied_wf hc hw
  | push x =>
    obtain ⟨hx, ⟨-, rfl, -⟩ | ⟨hf, -, rfl, -⟩⟩ := ringPush_eq_next.1 h
    · exact hw
    · exact pushed_wf hc hw hx hf
  | pop =>
    obtain ⟨-, rfl, -⟩ | ⟨-, y, -, rfl, -⟩ := ringPop_eq_next.1 h
    · exact hw
    · exact popped_wf hc hw
  | status => obtain ⟨rfl, -⟩ := ringStatus_eq_next.1 h; exact hw

/-- On a sound ring every ring buffer command whose operand fits goes on. -/
theorem ringOp_goes_on {o : RingOp} (hw : RingWf c r) (ho : o.fits c = true) :
    ∃ r' v, ringOp o c r = .next (r', v) := by
  cases o with
  | init => exact ⟨_, _, rfl⟩
  | push x =>
    have hx : x < 2 ^ c.elemBits := by simpa [RingOp.fits] using ho
    cases hf : r.full with
    | true => exact ⟨_, _, ringPush_eq_next.2 ⟨hx, .inl ⟨hf, rfl, rfl⟩⟩⟩
    | false =>
      exact ⟨_, _, ringPush_eq_next.2 ⟨hx, .inr ⟨hf, by rw [hw.1.1]; exact hw.2.1, rfl, rfl⟩⟩⟩
  | pop =>
    cases he : r.isEmpty with
    | true => exact ⟨_, _, ringPop_eq_next.2 (.inl ⟨he, rfl, rfl⟩)⟩
    | false =>
      have hl : r.tail < r.buf.length := by rw [hw.1.1]; exact hw.2.2.1
      exact ⟨_, _, ringPop_eq_next.2
        (.inr ⟨he, _, List.getElem?_eq_getElem hl, rfl, rfl⟩)⟩
  | status => exact ⟨_, _, rfl⟩

/-! ### The count -/

/-- The count of a sound ring without integers (10_state.md R27). -/
theorem count_eq (hw : RingWf c r) : r.count c =
    if r.full then c.cap else if r.tail ≤ r.head then r.head - r.tail
      else r.head + c.cap - r.tail := by
  obtain ⟨-, hh, ht, -⟩ := hw
  unfold RingBuf.count
  split
  · rfl
  · split
    · rw [Int.emod_eq_of_lt (by omega) (by omega)]; omega
    · rw [← Int.add_emod_right, Int.emod_eq_of_lt (by omega) (by omega)]; omega

/-- A step forward from a place in the ring. -/
theorem mod_cap {n : Nat} {i : Nat} (h : i < 2 * n) :
    i % n = if i < n then i else i - n := by
  split
  · exact Nat.mod_eq_of_lt ‹_›
  · rw [Nat.mod_eq_sub_mod (by omega), Nat.mod_eq_of_lt (by omega)]

theorem inc_eq {i : Nat} (h : i < c.cap) : inc c i = if i + 1 = c.cap then 0 else i + 1 := by
  unfold inc
  rw [mod_cap (by omega)]
  split <;> split <;> omega

theorem count_le (hw : RingWf c r) : r.count c ≤ c.cap := by
  rw [count_eq hw]
  have := hw.2
  split <;> [rfl; split <;> omega]

theorem count_lt (hw : RingWf c r) (hf : r.full = false) : r.count c < c.cap := by
  rw [count_eq hw]
  have := hw.2
  simp only [hf, Bool.false_eq_true, ↓reduceIte]
  split <;> omega

theorem count_of_full (hf : r.full = true) : r.count c = c.cap := by
  simp [RingBuf.count, hf]

theorem count_pushed (hc : 0 < c.cap) (hw : RingWf c r) (hx : x < 2 ^ c.elemBits)
    (hf : r.full = false) : (pushed c r x).count c = r.count c + 1 := by
  rw [count_eq (pushed_wf hc hw hx hf), count_eq hw]
  have hh := hw.2
  have hi := inc_eq hh.1
  simp only [pushed, hf, Bool.false_eq_true, ↓reduceIte]
  generalize inc c r.head = n at hi ⊢
  by_cases hn : n = r.tail
  · simp only [hn, ↓reduceIte]
    split at hi <;> split <;> omega
  · simp only [hn, Bool.false_eq_true, ↓reduceIte]
    split at hi <;> split <;> split <;> omega

theorem count_popped (hc : 0 < c.cap) (hw : RingWf c r) (he : r.isEmpty = false) :
    (poppedRing c r).count c + 1 = r.count c := by
  rw [count_eq (popped_wf hc hw), count_eq hw]
  have hh := hw.2
  have he' : r.head = r.tail → r.full = true := by
    intro h
    by_contra hn
    simp [RingBuf.isEmpty, h, hn] at he
  simp only [poppedRing, Bool.false_eq_true, ↓reduceIte, inc_eq hh.2.1]
  cases hf : r.full
  · have : r.head ≠ r.tail := fun h => by simp [he' h] at hf
    simp only [Bool.false_eq_true, ↓reduceIte]
    split <;> split <;> split <;> omega
  · have := hh.2.2 hf
    simp only [↓reduceIte]
    split <;> split <;> omega

@[simp] theorem count_emptied : (emptied r).count c = 0 := by
  simp [RingBuf.count, emptied]

/-! ### The content -/

theorem length_content : (r.content c).length = r.count c := by
  simp [RingBuf.content]

@[simp] theorem content_emptied : (emptied r).content c = [] := by
  simp [RingBuf.content]

/-- The slot behind the last occupied one is `head`. -/
theorem tail_add_count (hw : RingWf c r) (hf : r.full = false) :
    (r.tail + r.count c) % c.cap = r.head := by
  have hh := hw.2
  rw [count_eq hw]
  simp only [hf, Bool.false_eq_true, ↓reduceIte]
  split
  · rw [mod_cap (by omega)]; split <;> omega
  · rw [mod_cap (by omega)]; split <;> omega

/-- No occupied slot of a buffer that is not full is `head`. -/
theorem occupied_ne_head (hw : RingWf c r) (hf : r.full = false) {j : Nat}
    (hj : j < r.count c) : (r.tail + j) % c.cap ≠ r.head := by
  have hh := hw.2
  rw [count_eq hw] at hj
  simp only [hf, Bool.false_eq_true, ↓reduceIte] at hj
  split at hj
  · rw [mod_cap (by omega)]; split <;> omega
  · rw [mod_cap (by omega)]; split <;> omega

/-- An accepted push appends its item to the content. -/
theorem content_pushed (hc : 0 < c.cap) (hw : RingWf c r) (hx : x < 2 ^ c.elemBits)
    (hf : r.full = false) : (pushed c r x).content c = r.content c ++ [x] := by
  unfold RingBuf.content
  rw [count_pushed hc hw hx hf, List.range_succ, List.map_append]
  have hl : r.head < r.buf.length := by rw [hw.1.1]; exact hw.2.1
  congr 1
  · refine List.map_congr_left fun j hj => ?_
    have := occupied_ne_head hw hf (List.mem_range.1 hj)
    simp [pushed, List.getD_eq_getElem?_getD, List.getElem?_set_ne (Ne.symm this)]
  · have ht : (r.tail + r.count c) % c.cap = r.head := tail_add_count hw hf
    simp [pushed, ht, List.getD_eq_getElem?_getD, hl]

/-- A pop that returns an item takes it from the front of the content. -/
theorem content_popped (hc : 0 < c.cap) (hw : RingWf c r) (he : r.isEmpty = false) {y : Item}
    (hy : r.buf[r.tail]? = some y) : r.content c = y :: (poppedRing c r).content c := by
  unfold RingBuf.content
  rw [← count_popped hc hw he, List.range_succ_eq_map, List.map_cons, List.map_map]
  congr 1
  · simp [List.getD_eq_getElem?_getD, Nat.mod_eq_of_lt hw.2.2.1, hy]
  · refine List.map_congr_left fun j _ => ?_
    have : (r.tail + (j + 1)) % c.cap = (inc c r.tail + j) % c.cap := by
      unfold inc
      rw [Nat.mod_add_mod]
      congr 1
      omega
    simp [poppedRing, this]

/-- The content is empty exactly when the buffer is. -/
theorem content_eq_nil (hc : 0 < c.cap) (hw : RingWf c r) :
    r.content c = [] ↔ r.isEmpty = true := by
  rw [← List.length_eq_zero_iff, length_content, count_eq hw, ringEmpty_iff]
  have hh := hw.2
  cases hf : r.full
  · simp only [Bool.false_eq_true, ↓reduceIte, and_true]
    split <;> omega
  · simp; omega

/-- A sound ring is full exactly when its content has `CAP` items. -/
theorem length_content_eq_cap (hw : RingWf c r) :
    (r.content c).length = c.cap ↔ r.full = true := by
  rw [length_content]
  constructor
  · intro h
    by_contra hf
    have := count_lt hw (by simpa using hf)
    omega
  · exact count_of_full

/-! ### The status word -/

theorem statusWord_bit0 : (r.statusWord c).getLsbD 0 = r.isEmpty := by
  show ((BitVec.ofNat 30 (r.count c) ++ BitVec.ofBool r.full) ++
    BitVec.ofBool r.isEmpty : BitVec (30 + 1 + 1)).getLsbD 0 = r.isEmpty
  rw [BitVec.getLsbD_append]
  simp

theorem statusWord_bit1 : (r.statusWord c).getLsbD 1 = r.full := by
  show ((BitVec.ofNat 30 (r.count c) ++ BitVec.ofBool r.full) ++
    BitVec.ofBool r.isEmpty : BitVec (30 + 1 + 1)).getLsbD 1 = r.full
  rw [BitVec.getLsbD_append, BitVec.getLsbD_append]
  simp

/-- The status word as a number (10_state.md R29). -/
theorem statusWord_toNat (h : r.count c < 2 ^ 30) :
    (r.statusWord c).toNat = r.count c * 4 + r.full.toNat * 2 + r.isEmpty.toNat := by
  show ((BitVec.ofNat 30 (r.count c) ++ BitVec.ofBool r.full) ++
    BitVec.ofBool r.isEmpty : BitVec (30 + 1 + 1)).toNat = _
  simp only [BitVec.toNat_append, BitVec.toNat_ofNat, BitVec.toNat_ofBool, Nat.mod_eq_of_lt h]
  rw [← Nat.shiftLeft_add_eq_or_of_lt (Bool.toNat_lt _),
    ← Nat.shiftLeft_add_eq_or_of_lt (Bool.toNat_lt _)]
  simp [Nat.shiftLeft_eq]
  omega

/-- An empty buffer is not full. -/
theorem full_add_isEmpty : r.full.toNat + r.isEmpty.toNat ≤ 1 := by
  cases hf : r.full
  · simp [Bool.toNat_le]
  · simp [RingBuf.isEmpty, hf]

/-! ### A sound ring inside a block -/

theorem hasRing_cap {s : State} {k : Nat} (h : HasRing s k c r) : 0 < c.cap :=
  (accepted_cap h.2.1).1

theorem hasRing_count_lt {s : State} {k : Nat} (h : HasRing s k c r) : r.count c < 2 ^ 30 :=
  Nat.lt_of_le_of_lt (count_le h.2.2) (accepted_cap h.2.1).2

/-- Executing a ring buffer command on a sound ring of a block, and the ring it leaves. -/
theorem hasRing_exec {s : State} {k : Nat} {o : RingOp} (h : HasRing s k c r)
    (hf : ringOp o c r = .next (r', v)) :
    exec (o.on k) s = .next ((s.setRing k r').respond (o.port k) v) ∧
      HasRing ((s.setRing k r').respond (o.port k) v) k c r' := by
  refine ⟨by rw [exec_on]; exact onRing_of_unit h.1 h.2.1 hf, ?_, h.2.1,
    ringOp_wf (hasRing_cap h) h.2.2 hf⟩
  simp only [respond_units]
  exact setRing_get_self _ h.1 r'

/-- A ring put back unchanged. -/
theorem hasRing_setRing_self {s : State} {k : Nat} (h : HasRing s k c r) : s.setRing k r = s :=
  setRing_self s h.1

end Sys2Proof.Machine
end

