-- ==== Sys2Proof/Laws/Runs.lean ====
section
/-! SUPPORT. What runs can do: cutting a list of commands, and what arriving leaves alone. -/

namespace Sys2Proof.Machine

variable {s t : State}

theorem execAll_cons_eq_next {i : Instr} {is : List Instr} :
    execAll (i :: is) s = .next t ↔ ∃ u, exec i s = .next u ∧ execAll is u = .next t := by
  cases h : exec i s <;> simp [execAll, h]

theorem serveAll_cons_eq_next {r : Request} {rs : List Request} :
    serveAll (r :: rs) s = .next t ↔ ∃ u, serve r s = .next u ∧ serveAll rs u = .next t := by
  cases h : serve r s <;> simp [serveAll, h]

theorem execAll_append_eq_next {is js : List Instr} :
    execAll (is ++ js) s = .next t ↔ ∃ u, execAll is s = .next u ∧ execAll js u = .next t := by
  induction is generalizing s with
  | nil => simp [execAll]
  | cons i is ih =>
    simp only [List.cons_append, execAll_cons_eq_next, ih]
    exact ⟨fun ⟨u, h, v, h1, h2⟩ => ⟨v, ⟨u, h, h1⟩, h2⟩, fun ⟨v, ⟨u, h, h1⟩, h2⟩ => ⟨u, h, v, h1, h2⟩⟩

theorem serveAll_append_eq_next {rs qs : List Request} :
    serveAll (rs ++ qs) s = .next t ↔ ∃ u, serveAll rs s = .next u ∧ serveAll qs u = .next t := by
  induction rs generalizing s with
  | nil => simp [serveAll]
  | cons r rs ih =>
    simp only [List.cons_append, serveAll_cons_eq_next, ih]
    exact ⟨fun ⟨u, h, v, h1, h2⟩ => ⟨v, ⟨u, h, h1⟩, h2⟩, fun ⟨v, ⟨u, h, h1⟩, h2⟩ => ⟨u, h, v, h1, h2⟩⟩

variable (s : State) (now : List Request)

@[simp] theorem arriveNow_units : (s.arriveNow now).units = s.units := by
  unfold State.arriveNow; split <;> rfl

@[simp] theorem arriveNow_acc : (s.arriveNow now).acc = s.acc := by
  unfold State.arriveNow; split <;> rfl

@[simp] theorem arriveNow_faultLog : (s.arriveNow now).faultLog = s.faultLog := by
  unfold State.arriveNow; split <;> rfl

@[simp] theorem arriveNow_responses : (s.arriveNow now).responses = s.responses := by
  unfold State.arriveNow; split <;> rfl

@[simp] theorem arriveNow_held : (s.arriveNow now).held = s.held := by
  unfold State.arriveNow; split <;> rfl

@[simp] theorem arriveNow_config : (s.arriveNow now).config = s.config := by simp [State.config]

/-- The commands outstanding are those before and those that arrive. -/
theorem mem_arriveNow_outstanding {r : Request} :
    r ∈ (s.arriveNow now).outstanding ↔ r ∈ s.outstanding ∨ r ∈ now := by
  unfold State.arriveNow
  split <;> rename_i h <;> simp [State.outstanding, h, or_comm, or_left_comm]

end Sys2Proof.Machine
end

