-- ==== Sys2Proof/Tests/Slice0.lean ====
section
/-! SUPPORT. Tests. Expected results come from spec/95_test_vectors.md (V-…) and from the examples of
the rules. The second part shows, for every statement with hypotheses, that something meets them. -/

namespace Sys2Proof.Tests

open Sys2Proof Sys2Proof.Machine

/-- The parameters of the vectors: `CAP` slots of 8 bits. -/
def cfg (cap : Nat) : RingConfig := { cap := cap, elemBits := 8, producers := 1, consumers := 1 }

/-- A ring as the vectors write it: `(head, tail, full)` and `buf`. -/
def ring (head tail : Nat) (full : Bool) (buf : List Item) : RingBuf :=
  { buf := buf, head := head, tail := tail, full := full }

/-- A block of one instance, nothing presented. -/
def block (cap : Nat) (r : RingBuf) : State :=
  { units := [{ cfg := cfg cap, ring := r }], acc := 0xFFFF#16, faultLog := [], responses := [],
    held := [], arrivals := [] }

/-- The block with the accumulator set. -/
def withAcc (a : Word16) : State := { block 4 (ring 0 0 false [0, 0, 0, 0]) with acc := a }

/-- The block with commands held on its ports. -/
def holding (l : List Request) : State :=
  { block 4 (ring 2 0 false [0xA0, 0xA1, 0, 0]) with acc := 0x2F8D#16, held := l }

/-- The first ring and the responses of a command's next state. -/
def seen (o : Host.Outcome State Fault Refusal) : Option (List RingBuf × List Response) :=
  (nextOf o).map (fun s => (s.units.map RingUnit.ring, s.responses.map PortResponse.rsp))

/-- The accumulator and the responses of a command's next state. -/
def seenCrc (o : Host.Outcome State Fault Refusal) : Option (Word16 × List Response) :=
  (nextOf o).map (fun s => (s.acc, s.responses.map PortResponse.rsp))

/-! ### Well-formedness: each check refuses an ill-formed term -/

theorem test_config_accepts_bounds :
    (cfg 1).accepted = true ∧ (cfg (2 ^ 30 - 1)).accepted = true ∧
      Config.accepted [cfg 1, cfg 256] = true := by decide

theorem test_config_refuses_capacity :
    (cfg 0).accepted = false ∧ (cfg (2 ^ 30)).accepted = false := by decide

theorem test_config_refuses_agents :
    RingConfig.accepted { cfg 4 with producers := 2 } = false ∧
      RingConfig.accepted { cfg 4 with producers := 0 } = false ∧
      RingConfig.accepted { cfg 4 with consumers := 2 } = false ∧
      RingConfig.accepted { cfg 4 with consumers := 0 } = false := by decide

theorem test_config_refuses_no_instance :
    Config.accepted [] = false ∧ Config.accepted [cfg 4, cfg 0] = false := by decide

theorem test_request_refused :
    Request.wellFormed [cfg 4] (.prod 0 0x01#8 255) = true ∧
      Request.wellFormed [cfg 4] (.prod 0 0x01#8 256) = false ∧
      Request.wellFormed [cfg 4] (.prod 1 0x01#8 0) = false ∧
      Request.wellFormed [cfg 4] (.cons 1 0x02#8) = false := by decide

theorem test_instr_refused :
    Instr.wellFormed [cfg 4] (.rbPush 0 256) = false ∧
      Instr.wellFormed [cfg 4] (.rbPush 1 0) = false ∧
      Instr.wellFormed [cfg 4] (.rbInit 1) = false ∧
      Instr.wellFormed [cfg 4] (.rbPop 1) = false ∧
      Instr.wellFormed [cfg 4] (.rbStatus 1) = false := by decide

/-! ### Decoding: V-DEC-1 to V-DEC-17, words written out from 30_encoding.md R61, R62 -/

theorem test_decode_rbInit : decode (.cons 0 0b00000000#8) = .ok (.rbInit 0) ∧
    encode (.rbInit 0) = .cons 0 0b00000000#8 := by decide

theorem test_decode_rbPush : decode (.prod 0 0b00000001#8 0x11) = .ok (.rbPush 0 0x11) ∧
    encode (.rbPush 0 0x11) = .prod 0 0b00000001#8 0x11 := by decide

theorem test_decode_rbPop : decode (.cons 1 0b00000010#8) = .ok (.rbPop 1) ∧
    encode (.rbPop 1) = .cons 1 0b00000010#8 := by decide

theorem test_decode_rbStatus : decode (.cons 0 0b00000011#8) = .ok (.rbStatus 0) ∧
    encode (.rbStatus 0) = .cons 0 0b00000011#8 := by decide

theorem test_decode_crcInit : decode (.crc 0b01000000#8 0xFF#8) = .ok .crcInit ∧
    (encode .crcInit).cmd = 0b01000000#8 := by decide

theorem test_decode_crcUpdate : decode (.crc 0b01000001#8 0x31#8) = .ok (.crcUpdate 0x31#8) ∧
    encode (.crcUpdate 0x31#8) = .crc 0b01000001#8 0x31#8 := by decide

theorem test_decode_crcFinal : decode (.crc 0b01000010#8 0x00#8) = .ok .crcFinal ∧
    (encode .crcFinal).cmd = 0b01000010#8 := by decide

/-- V-DEC-8 to V-DEC-12 and V-DEC-17. -/
theorem test_decode_illegal :
    decode (.crc 0x43#8 0) = .error .illegalCommand ∧
      decode (.cons 0 0x04#8) = .error .illegalCommand ∧
      decode (.prod 0 0x81#8 0) = .error .illegalCommand ∧
      decode (.crc 0xC2#8 0) = .error .illegalCommand ∧
      decode (.crc 0xFF#8 0) = .error .illegalCommand ∧
      decode (.prod 0 0x45#8 0) = .error .illegalCommand := by decide

/-- V-DEC-13 to V-DEC-16. -/
theorem test_decode_wrongPort :
    decode (.prod 0 0x02#8 0) = .error .wrongPort ∧
      decode (.cons 0 0x01#8) = .error .wrongPort ∧
      decode (.cons 0 0x41#8) = .error .wrongPort ∧
      decode (.crc 0x00#8 0) = .error .wrongPort := by decide

theorem test_decode_table_words :
    decodeTableWord 8 0x00 = some (.rbInit 0) ∧ decodeTableWord 8 0x01 = some (.rbPush 0 0) ∧
      decodeTableWord 8 0x02 = some (.rbPop 0) ∧ decodeTableWord 8 0x03 = some (.rbStatus 0) ∧
      decodeTableWord 8 0x40 = some .crcInit ∧ decodeTableWord 8 0x41 = some (.crcUpdate 0) ∧
      decodeTableWord 8 0x42 = some .crcFinal ∧ decodeTableWord 8 0x43 = none := by decide

/-! ### The ring buffer commands -/

/-- V-RB-11. -/
theorem test_init_discards :
    seen (exec (.rbInit 0) (block 4 (ring 3 1 false [9, 8, 7, 6]))) =
      some ([ring 0 0 false [9, 8, 7, 6]], [.ack]) := by decide

/-- V-RB-12. -/
theorem test_init_full :
    seen (exec (.rbInit 0) (block 4 (ring 2 2 true [9, 8, 7, 6]))) =
      some ([ring 0 0 false [9, 8, 7, 6]], [.ack]) := by decide

/-- V-RB-5: head wraps and the buffer is full. V-RB-6: the newest is dropped. -/
theorem test_push_wraps_then_drops :
    seen (exec (.rbPush 0 0x44) (block 4 (ring 3 0 false [1, 2, 3, 0]))) =
        some ([ring 0 0 true [1, 2, 3, 0x44]], [.ack]) ∧
      seen (exec (.rbPush 0 0x55) (block 4 (ring 0 0 true [1, 2, 3, 0x44]))) =
        some ([ring 0 0 true [1, 2, 3, 0x44]], [.noItem]) := by decide

/-- V-RB-20 (`CAP` = 3) and V-RB-13 (`CAP` = 1). -/
theorem test_push_odd_capacities :
    seen (exec (.rbPush 0 0x05) (block 3 (ring 2 0 false [1, 2, 0]))) =
        some ([ring 0 0 true [1, 2, 5]], [.ack]) ∧
      seen (exec (.rbPush 0 0x07) (block 1 (ring 0 0 false [0]))) =
        some ([ring 0 0 true [7]], [.ack]) := by decide

/-- V-RB-8 and V-RB-2: tail wraps; a pop on empty changes nothing. -/
theorem test_pop_wraps :
    seen (exec (.rbPop 0) (block 4 (ring 1 3 false [1, 2, 3, 4]))) =
        some ([ring 1 0 false [1, 2, 3, 4]], [.item 4]) ∧
      seen (exec (.rbPop 0) (block 4 (ring 0 0 false [1, 2, 3, 4]))) =
        some ([ring 0 0 false [1, 2, 3, 4]], [.noItem]) := by decide

/-- The example of 40_ring_buffer.md R82: a pop of a full buffer. -/
theorem test_pop_full :
    seen (exec (.rbPop 0) (block 4 (ring 1 1 true [0x55, 0x22, 0x33, 0x44]))) =
      some ([ring 1 2 false [0x55, 0x22, 0x33, 0x44]], [.item 0x22]) := by decide

/-- V-RB-9. -/
theorem test_status_count :
    seen (exec (.rbStatus 0) (block 4 (ring 1 3 false [1, 2, 3, 4]))) =
      some ([ring 1 3 false [1, 2, 3, 4]], [.status 0x00000008#32]) := by decide

/-- V-RB-10, V-RB-16 and V-RB-19: full words. -/
theorem test_status_full :
    seen (exec (.rbStatus 0) (block 4 (ring 2 2 true [1, 2, 3, 4]))) =
        some ([ring 2 2 true [1, 2, 3, 4]], [.status 0x00000012#32]) ∧
      (ring 0 0 true []).statusWord (cfg 1) = 0x00000006#32 ∧
      (ring 0 0 true []).statusWord (cfg 256) = 0x00000402#32 := by decide

/-! ### The CRC commands -/

/-- The example of 41_crc16.md R104. -/
theorem test_crcInit : seenCrc (exec .crcInit (withAcc 0x6F91#16)) =
    some (0xFFFF#16, [.ack]) := by decide

/-- V-CRC-40. -/
theorem test_crcUpdate_zero : seenCrc (exec (.crcUpdate 0x00#8) (withAcc 0xFFFF#16)) =
    some (0x0F87#16, [.ack]) := by decide

/-- V-CRC-42, V-CRC-43 and V-CRC-44. -/
theorem test_crcUpdate_steps : crcStep 0x0000#16 0x80#8 = 0x8408#16 ∧
    crcStep 0x0000#16 0x01#8 = 0x1189#16 ∧ crcStep 0x00FF#16 0xFF#8 = 0x0000#16 := by decide

/-- V-CRC-18. -/
theorem test_crcFinal : seenCrc (exec .crcFinal (withAcc 0x6F91#16)) =
    some (0x6F91#16, [.crc 0x6E90#16]) := by decide

/-- V-CRC-18: "123456789". -/
theorem test_crc16_check :
    crc16 [0x31#8, 0x32#8, 0x33#8, 0x34#8, 0x35#8, 0x36#8, 0x37#8, 0x38#8, 0x39#8] = 0x6E90#16 := by
  decide +kernel

/-- V-CRC-30. -/
def samplePacket : Packet :=
  { length := 0x0B#8, packetId := 1#32, timestamp := 0x4FD7A5E0#32,
    records := [0x01#8, 0xAA#8, 0xBB#8] }

/-- V-CRC-30: the packet on the wire, after a sync byte of any value. -/
theorem test_packet_wire : samplePacket.lengthAgrees = true ∧
    samplePacket.wire 0x7E#8 =
      [0x7E#8, 0x0B#8, 0x01#8, 0x00#8, 0x00#8, 0x00#8, 0xE0#8, 0xA5#8, 0xD7#8, 0x4F#8, 0x01#8,
        0xAA#8, 0xBB#8, 0x66#8, 0x3E#8] := by decide +kernel

/-! ### Ports, steps, faults, the assembler -/

/-- P4, line 1: an illegal word faults, is logged, and changes no unit state. -/
theorem test_step_fault :
    (nextOf (step (holding [.crc 0x43#8 0x00#8]))).map (fun s => (s.acc, s.faultLog, s.responses)) =
      some (0x2F8D#16, [{ code := .illegalCommand, cmd := 0x43#8, port := .crc }],
        [{ port := .crc, rsp := .fault .illegalCommand }]) := by decide

/-- V-RB-30, pop first: two commands that arrive together are served in the order of the block. -/
theorem test_race_pop_first :
    seen (Host.Core.run Sys2Proof.core 2
        { block 4 (ring 1 1 true [0x0E, 0x0B, 0x0C, 0x0D]) with
          arrivals := [[.cons 0 0x02#8, .prod 0 0x01#8 0x0F]] }) =
      some ([ring 2 2 true [0x0E, 0x0F, 0x0C, 0x0D]], [.item 0x0B, .ack]) := by decide

/-- R57: a second command for a port that is taken waits at its agent and is presented later. -/
theorem test_port_holds_one :
    (present { block 4 (ring 0 0 false [0, 0, 0, 0]) with
      arrivals := [[.prod 0 0x01#8 1, .prod 0 0x01#8 2, .cons 0 0x02#8]] }).held =
        [.prod 0 0x01#8 1, .cons 0 0x02#8] ∧
    (present { block 4 (ring 0 0 false [0, 0, 0, 0]) with
      arrivals := [[.prod 0 0x01#8 1, .prod 0 0x01#8 2, .cons 0 0x02#8]] }).arrivals =
        [[.prod 0 0x01#8 2]] := by decide

/-- V-RB-1: the status right after reset, through the word of the opcode table. -/
theorem test_fetch_status :
    (nextOf (step (State.reset.withFetchWord 8 0x03))).map State.responses =
      some [{ port := .cons 0, rsp := .status 0x00000001#32 }] := by decide

/-- R70: one line, one command. -/
theorem test_assemble :
    assembleLine standardNames [cfg 256, cfg 32]
        ['R', 'B', '_', 'B', 'U', 'S', '.', 'P', 'U', 'S', 'H', ' ', '0', 'x', 'f', 'F', ' ', ';', 'x'] =
          .ok (some (.rbPush 1 255)) ∧
      assembleLine standardNames [cfg 256, cfg 32]
        ['R', 'B', '.', 'P', 'U', 'S', 'H', ' ', '2', '5', '6'] = .error .literalTooWide ∧
      assembleLine standardNames [cfg 256, cfg 32]
        ['C', 'R', 'C', '.', 'U', 'P', 'D', 'A', 'T', 'E', ' ', '0', 'b', '1', '0'] =
          .ok (some (.crcUpdate 0x02#8)) := by decide

/-! ### Witnesses: something meets the hypotheses of every statement, clause by clause -/

/-- Two items, 0xA0 the older, in slots 0 and 1. -/
def two : RingBuf := ring 2 0 false [0xA0, 0xA1, 0, 0]

/-- Three items; the next push fills the last slot and wraps. -/
def three : RingBuf := ring 3 0 false [1, 2, 255, 0]

/-- Full, with the oldest item in the last slot. -/
def fullRing : RingBuf := ring 3 3 true [1, 2, 3, 255]

/-- Empty, with both indices at the last slot. -/
def emptyRing : RingBuf := ring 3 3 false [1, 2, 3, 255]

/-- Two instances and a fault log that is not empty. -/
def pair : State :=
  { units := [{ cfg := cfg 4, ring := two }, { cfg := cfg 4, ring := fullRing }]
    acc := 0x2F8D#16
    faultLog := [{ code := .wrongPort, cmd := 0x02#8, port := .prod 1 }]
    responses := []
    held := [.prod 0 0x01#8 255, .crc 0x43#8 0x00#8, .cons 0 0x02#8]
    arrivals := [[.cons 1 0x00#8, .prod 0 0x01#8 7], []] }

theorem witness_rings :
    HasRing (block 4 two) 0 (cfg 4) two ∧ HasRing (block 4 three) 0 (cfg 4) three ∧
      HasRing (block 4 fullRing) 0 (cfg 4) fullRing ∧ fullRing.full = true ∧
      HasRing (block 4 emptyRing) 0 (cfg 4) emptyRing ∧ emptyRing.isEmpty = true ∧
      HasRing pair 1 (cfg 4) fullRing ∧ (255 : Item) < 2 ^ (cfg 4).elemBits := by decide

theorem witness_inv : Inv pair ∧ Inv (holding []) ∧ Inv (holding [.cons 0 0x02#8]) := by decide

theorem witness_StepRunsTheDecodedCommand :
    pair.config.accepted = true ∧
      (present pair).held = .prod 0 0x01#8 255 :: [.crc 0x43#8 0x00#8, .cons 0 0x02#8, .cons 1 0x00#8] ∧
      pair.config.hasPort (.prod 0) = true ∧
      decode (.prod 0 0x01#8 255) = .ok (.rbPush 0 255) := by decide

theorem witness_FaultRecordsCodeWordAndPort :
    (holding [.crc 0x43#8 0x00#8]).config.accepted = true ∧
      (present (holding [.crc 0x43#8 0x00#8])).held = .crc 0x43#8 0x00#8 :: [] ∧
      (holding [.crc 0x43#8 0x00#8]).config.hasPort .crc = true ∧
      decode (.crc 0x43#8 0x00#8) = .error .illegalCommand ∧
      (present (holding [.prod 0 0x02#8 9])).held = .prod 0 0x02#8 9 :: [] ∧
      (holding [.prod 0 0x02#8 9]).config.hasPort (.prod 0) = true ∧
      decode (.prod 0 0x02#8 9) = .error .wrongPort := by decide

theorem witness_FaultingCommandChangesNoUnitState :
    (holding []).config.hasPort (.prod 0) = true ∧
      decode (.prod 0 0x02#8 9) = .error .wrongPort ∧
      ∃ u, serve (.cons 0 0x02#8) (holding []) = .next u :=
  ⟨by decide, by decide, _, rfl⟩

theorem witness_CleanRunsAreThoseWithoutAFault :
    (∃ t, serveAll [.prod 0 0x02#8 9, .cons 0 0x02#8] (holding []) = .next t) ∧
      (∃ t, serveAll [.prod 0 0x01#8 9, .cons 0 0x02#8] (holding []) = .next t) ∧
      [Request.prod 0 0x01#8 9, .cons 0 0x02#8].map decode =
        [Instr.rbPush 0 9, .rbPop 0].map Except.ok :=
  ⟨⟨_, rfl⟩, ⟨_, rfl⟩, rfl⟩

theorem witness_ExactlyTwoFaultsIllegalWordFirst :
    decode (.cons 0 0x43#8) = .error .illegalCommand ∧ decode (.crc 0x01#8 0x00#8) = .error .wrongPort ∧
      decode (.prod 0 0x03#8 0) = .error .wrongPort ∧ decode (.cons 0 0x42#8) = .error .wrongPort := by
  decide

theorem witness_IllegalWordsAreThoseOutsideTheMap :
    (holding []).config.hasPort (.cons 0) = true ∧
      decode (.cons 0 0x3F#8) = .error .illegalCommand ∧
      decode (.cons 0 0x04#8) = .error .illegalCommand ∧
      decode (.cons 0 0x80#8) = .error .illegalCommand ∧
      decode (.cons 0 0xC0#8) = .error .illegalCommand ∧
      decode (.cons 0 0x43#8) = .error .illegalCommand := by decide

theorem witness_DecodingInvertsEncoding :
    Instr.wellFormed [cfg 4] (.rbPush 0 255) = true ∧ Instr.wellFormed [cfg 4] (.rbPop 0) = true ∧
      Instr.wellFormed [cfg 4] (.crcUpdate 0xFF#8) = true := by decide

theorem witness_RbInitEmptiesTheBuffer :
    pair.units[1]? = some { cfg := cfg 4, ring := fullRing } ∧ (cfg 4).accepted = true ∧
      (block 4 emptyRing).units[0]? = some { cfg := cfg 4, ring := emptyRing } ∧
      emptyRing.isEmpty = true ∧
      HasRing (block 4 three) 0 (cfg 4) three ∧ 255 < 2 ^ (cfg 4).elemBits := by decide

theorem witness_RbPushAppendsUnlessFull :
    HasRing (block 4 three) 0 (cfg 4) three ∧ three.full = false ∧
      HasRing (block 4 fullRing) 0 (cfg 4) fullRing ∧ fullRing.full = true ∧
      255 < 2 ^ (cfg 4).elemBits := by decide

theorem witness_RbPopReturnsTheOldest :
    (HasRing (block 4 emptyRing) 0 (cfg 4) emptyRing ∧ emptyRing.head = emptyRing.tail ∧
        emptyRing.full = false) ∧
      (HasRing (block 4 fullRing) 0 (cfg 4) fullRing ∧
        ¬(fullRing.head = fullRing.tail ∧ fullRing.full = false)) ∧
      (HasRing (block 4 two) 0 (cfg 4) two ∧ ¬(two.head = two.tail ∧ two.full = false)) := by decide

theorem witness_RbStatusReportsTheState :
    HasRing (block 4 two) 0 (cfg 4) two ∧
      (HasRing (block 4 emptyRing) 0 (cfg 4) emptyRing ∧ emptyRing.head = emptyRing.tail ∧
        emptyRing.full = false) ∧
      HasRing (block 4 fullRing) 0 (cfg 4) fullRing ∧ fullRing.full = true := by decide

theorem witness_TooWidePushOperandIsRefused :
    HasRing (block 4 two) 0 (cfg 4) two ∧ 2 ^ (cfg 4).elemBits ≤ 256 := by decide

theorem witness_RingCommandsFrame :
    (∃ t, exec (RingOp.init.on 1) pair = .next t) ∧ (∃ t, exec ((RingOp.push 255).on 0) pair = .next t) ∧
      (∃ t, exec (RingOp.pop.on 1) pair = .next t) ∧ ∃ t, exec (RingOp.status.on 0) pair = .next t :=
  ⟨⟨_, rfl⟩, ⟨_, rfl⟩, ⟨_, rfl⟩, ⟨_, rfl⟩⟩

/-- `fullRing` with every slot changed but the one that `tail` names. -/
def fullRing' : RingBuf := ring 3 3 true [4, 5, 6, 255]

theorem witness_OnlyPushWritesASlotOnlyPopReadsOne :
    (∃ t u u', exec (.rbPush 0 255) (block 4 three) = .next t ∧ (block 4 three).units[0]? = some u ∧
        t.units[0]? = some u' ∧ u'.ring.buf[3]? ≠ u.ring.buf[3]?) ∧
      (HasRing (block 4 fullRing) 0 (cfg 4) fullRing ∧ fullRing'.head = fullRing.head ∧
        fullRing'.tail = fullRing.tail ∧ fullRing'.full = fullRing.full ∧ RingWf (cfg 4) fullRing' ∧
        (RingOp.pop = .pop → fullRing.isEmpty = false →
          fullRing'.buf[fullRing.tail]? = fullRing.buf[fullRing.tail]?) ∧
        ∃ t, exec (RingOp.pop.on 0) (block 4 fullRing) = .next t) ∧
      (HasRing (block 4 emptyRing) 0 (cfg 4) emptyRing ∧ RingWf (cfg 4) (ring 3 3 false [9, 9, 9, 9]) ∧
        (RingOp.pop = .pop → emptyRing.isEmpty = false →
          (ring 3 3 false [9, 9, 9, 9]).buf[emptyRing.tail]? = emptyRing.buf[emptyRing.tail]?) ∧
        ∃ t, exec (RingOp.pop.on 0) (block 4 emptyRing) = .next t) ∧
      Inv pair :=
  ⟨⟨_, _, _, rfl, rfl, rfl, by decide⟩,
    ⟨by decide, rfl, rfl, rfl, by decide, fun _ _ => rfl, _, rfl⟩,
    ⟨by decide, by decide, by decide, _, rfl⟩, by decide⟩

theorem witness_IndicesAdvanceModuloCapacity :
    ((3 : Nat) < (cfg 4).cap ∧ 3 + 1 = (cfg 4).cap) ∧ ((2 : Nat) < (cfg 4).cap ∧ 2 + 1 < (cfg 4).cap) ∧
      ((0 : Nat) < (cfg 1).cap ∧ 0 + 1 = (cfg 1).cap) ∧
      ((0 : Nat) < 2 ∧ (cfg 4).cap = 2 ^ 2 ∧ 3 < (cfg 4).cap) ∧
      ∃ t u u', exec (.rbPop 1) pair = .next t ∧ pair.units[1]? = some u ∧ t.units[1]? = some u' :=
  ⟨by decide, by decide, by decide, by decide, _, _, _, rfl, rfl, rfl⟩

theorem witness_FullImpliesHeadMeetsTail :
    (∃ t, exec (.rbPush 0 255) (block 4 three) = .next t ∧ ∀ u ∈ t.units, u.ring.full = true) ∧
      (∀ u ∈ pair.units, u.ring.full = true → u.ring.head = u.ring.tail) :=
  ⟨⟨_, rfl, by decide⟩, by decide⟩

theorem witness_CountMatchesPushesAndPops :
    RingWf (cfg 4) two ∧ RingWf (cfg 4) emptyRing ∧ RingWf (cfg 4) fullRing ∧
      (HasRing (block 4 three) 0 (cfg 4) three ∧
        ∃ t r', t.units[0]? = some { cfg := cfg 4, ring := r' } ∧
          exec (.rbPush 0 255) (block 4 three) = .next t ∧
          newResponses (block 4 three) t = [{ port := .prod 0, rsp := .ack }]) ∧
      (HasRing (block 4 fullRing) 0 (cfg 4) fullRing ∧
        ∃ t r', t.units[0]? = some { cfg := cfg 4, ring := r' } ∧
          exec (.rbPop 0) (block 4 fullRing) = .next t ∧
          newResponses (block 4 fullRing) t = [{ port := .cons 0, rsp := .item 255 }]) :=
  ⟨by decide, by decide, by decide, ⟨by decide, _, _, rfl, rfl, by decide⟩,
    ⟨by decide, _, _, rfl, rfl, by decide⟩⟩

theorem witness_StatusWordFields :
    (cfg 4).accepted = true ∧ RingWf (cfg 4) two ∧ RingWf (cfg 4) emptyRing ∧
      RingWf (cfg 4) fullRing := by decide

theorem witness_RingRefinesTheBoundedQueue :
    HasRing (block 4 three) 0 (cfg 4) three ∧
      ∀ o ∈ [RingOp.push 255, .push 0, .pop, .status, .init], o.fits (cfg 4) = true := by decide

theorem witness_CapacityPushesFillTheBuffer :
    HasRing (block 4 emptyRing) 0 (cfg 4) emptyRing ∧ emptyRing.isEmpty = true ∧
      [255, 0, 1, 2].length = (cfg 4).cap ∧ (∀ y ∈ [255, 0, 1, 2], y < 2 ^ (cfg 4).elemBits) ∧
      7 < 2 ^ (cfg 4).elemBits := by decide

theorem witness_NoOpLaws :
    (HasRing (block 4 fullRing) 0 (cfg 4) fullRing ∧ fullRing.full = true ∧
        255 < 2 ^ (cfg 4).elemBits) ∧
      HasRing (block 4 emptyRing) 0 (cfg 4) emptyRing ∧ emptyRing.isEmpty = true := by decide

theorem witness_PushAndPopTogetherOnAFullBuffer :
    (block 4 fullRing).config.accepted = true ∧ (block 4 fullRing).held = [] ∧
      HasRing (block 4 fullRing) 0 (cfg 4) fullRing ∧ fullRing.full = true ∧
      255 < 2 ^ (cfg 4).elemBits := by decide

theorem witness_PushAndPopTogetherOnAnEmptyBuffer :
    (block 4 emptyRing).config.accepted = true ∧ (block 4 emptyRing).held = [] ∧
      HasRing (block 4 emptyRing) 0 (cfg 4) emptyRing ∧ emptyRing.isEmpty = true ∧
      255 < 2 ^ (cfg 4).elemBits := by decide

theorem witness_ItemsComeOutInPushOrder :
    HasRing (block 4 three) 0 (cfg 4) three ∧
      (∃ t r', execAll ([RingOp.push 255, .push 0, .pop].map (RingOp.on 0)) (block 4 three) = .next t ∧
        t.units[0]? = some { cfg := cfg 4, ring := r' } ∧
        (newResponses (block 4 three) t).map PortResponse.rsp = [.ack, .noItem, .item 1]) ∧
      RingOp.init ∉ [RingOp.push 255, .push 0, .pop] :=
  ⟨by decide, ⟨_, _, rfl, rfl, by decide⟩, by decide⟩

theorem witness_ElementsAreOpaque :
    (HasRing (block 4 emptyRing) 0 (cfg 4) emptyRing ∧ emptyRing.isEmpty = true ∧
        255 < 2 ^ (cfg 4).elemBits) ∧
      (HasRing (block 4 three) 0 (cfg 4) three ∧ three.full = false ∧
        ∃ t r', exec (.rbPush 0 255) (block 4 three) = .next t ∧
          t.units[0]? = some { cfg := cfg 4, ring := r' }) ∧
      (HasRing (block 4 fullRing) 0 (cfg 4) fullRing ∧
        ∃ t r', exec (.rbPop 0) (block 4 fullRing) = .next t ∧
          t.units[0]? = some { cfg := cfg 4, ring := r' } ∧
          newResponses (block 4 fullRing) t = [{ port := .cons 0, rsp := .item 255 }]) ∧
      (HasRing (block 4 two) 0 (cfg 4) two ∧
        (∀ o ∈ [RingOp.push 255, .pop, .status], o.fits (cfg 4) = true) ∧
        ∀ x < 2 ^ (cfg 4).elemBits, 255 - x < 2 ^ (cfg 4).elemBits) :=
  ⟨by decide, ⟨by decide, by decide, _, _, rfl, rfl⟩, ⟨by decide, _, _, rfl, rfl, by decide⟩,
    ⟨by decide, by decide, fun x _ => Nat.lt_of_le_of_lt (Nat.sub_le 255 x) (by decide)⟩⟩

theorem witness_FullAndEmptyAreResultsNotFaults :
    (HasRing (block 4 fullRing) 0 (cfg 4) fullRing ∧ fullRing.full = true ∧
        255 < 2 ^ (cfg 4).elemBits) ∧
      (HasRing (block 4 emptyRing) 0 (cfg 4) emptyRing ∧ emptyRing.isEmpty = true) ∧
      Instr.crcFinal.port = .crc := by decide

theorem witness_StartIndexIsUnobservable :
    HasRing (block 4 (ring 0 0 false [1, 2, 3, 4])) 0 (cfg 4) (ring 0 0 false [1, 2, 3, 4]) ∧
      (ring 0 0 false [1, 2, 3, 4]).head = 0 ∧ (ring 0 0 false [1, 2, 3, 4]).tail = 0 ∧
      (ring 0 0 false [1, 2, 3, 4]).full = false ∧ 3 < (cfg 4).cap := by decide

/-- One item in slot 0, and the same with the three other slots changed. -/
theorem witness_UnoccupiedSlotsAreUnobservable :
    HasRing (block 4 (ring 1 0 false [7, 1, 2, 3])) 0 (cfg 4) (ring 1 0 false [7, 1, 2, 3]) ∧
      RingWf (cfg 4) (ring 1 0 false [7, 0, 255, 9]) ∧
      ∀ i, (ring 1 0 false [7, 1, 2, 3]).occupied (cfg 4) i →
        (ring 1 0 false [7, 0, 255, 9]).buf[i]? = (ring 1 0 false [7, 1, 2, 3]).buf[i]? := by
  refine ⟨by decide, by decide, fun i h => ?_⟩
  obtain ⟨j, hj, rfl⟩ := h
  have hc : (ring 1 0 false [7, 1, 2, 3]).count (cfg 4) = 1 := by decide
  obtain rfl : j = 0 := by omega
  rfl

theorem witness_StaleStatusStillBoundsThePops :
    (HasRing (block 4 two) 0 (cfg 4) two ∧
        Instr.rbInit 0 ∉ [Instr.rbPop 0, .rbPush 0 255, .rbPop 0] ∧
        popsOn 0 [Instr.rbPop 0, .rbPush 0 255, .rbPop 0] ≤ two.count (cfg 4) ∧
        ∃ t, execAll [Instr.rbPop 0, .rbPush 0 255, .rbPop 0] (block 4 two) = .next t) ∧
      (HasRing (block 4 three) 0 (cfg 4) three ∧ three.full = false ∧ 255 < 2 ^ (cfg 4).elemBits) ∧
      (HasRing (block 4 fullRing) 0 (cfg 4) fullRing ∧
        ∃ t, exec (.rbPush 0 255) (block 4 fullRing) = .next t) :=
  ⟨⟨by decide, by decide, by decide, _, rfl⟩, by decide, by decide, _, rfl⟩

theorem witness_DrainEndsOnlyWhenTheProducerPauses :
    HasRing (block 4 fullRing) 0 (cfg 4) fullRing ∧ fullRing.content (cfg 4) ≠ [] ∧
      fullRing.content (cfg 4) = [255, 1, 2, 3] ∧
      (HasRing (block 4 emptyRing) 0 (cfg 4) emptyRing ∧
        DrainSoFar 0 (block 4 emptyRing) [] (block 4 emptyRing) ∧
        ∃ t, exec (.rbPop 0) (block 4 emptyRing) = .next t ∧
          t.responses = (block 4 emptyRing).responses ++ [{ port := .cons 0, rsp := .noItem }]) :=
  ⟨by decide, by decide, by decide, by decide, .start _, _, rfl, rfl⟩

theorem witness_RunsMayBeInfinite :
    (Inv pair ∧ ∀ _ : Nat, (Request.prod 0 0x01#8 255).wellFormed pair.config = true) ∧
      (∀ _ : Nat, ∀ r ∈ [Request.prod 0 0x01#8 255, .cons 1 0x02#8], r.wellFormed pair.config = true) ∧
      HasRing (block 4 emptyRing) 0 (cfg 4) emptyRing ∧ emptyRing.isEmpty = true :=
  ⟨⟨by decide, fun _ => by decide⟩, fun _ => by decide, by decide, by decide⟩

theorem witness_CrcCommandsFrame :
    Instr.crcInit.port = .crc ∧ (Instr.crcUpdate 0xFF#8).port = .crc ∧ Instr.crcFinal.port = .crc ∧
      (∃ t, exec .crcInit pair = .next t) ∧ (∃ t, exec (.crcUpdate 0xFF#8) pair = .next t) ∧
      ∃ t, exec .crcFinal pair = .next t :=
  ⟨rfl, rfl, rfl, ⟨_, rfl⟩, ⟨_, rfl⟩, _, rfl⟩

theorem witness_StreamedChecksum :
    ∃ t, execAll [.crcInit, .crcUpdate 0x31#8, .crcFinal, .rbPop 0, .crcUpdate 0x32#8] pair = .next t :=
  ⟨_, rfl⟩

theorem witness_ChecksumDependsOnlyOnTheBytes :
    (∃ t, execAll [.crcUpdate 0x31#8, .rbPush 0 7] (State.resetOf [cfg 4]) = .next t) ∧
      (∃ t, execAll [.crcUpdate 0x00#8, .crcInit, .crcUpdate 0x31#8] (State.resetOf [cfg 1]) = .next t) ∧
      bytesSinceInit [.crcUpdate 0x31#8, .rbPush 0 7] [] =
        bytesSinceInit [.crcUpdate 0x00#8, .crcInit, .crcUpdate 0x31#8] [] :=
  ⟨⟨_, rfl⟩, ⟨_, rfl⟩, rfl⟩

theorem witness_SingleByteChangeIsDetected :
    ∃ h : 2 < [0x31#8, 0x32#8, 0x33#8].length, (0x00#8 : Byte) ≠ [0x31#8, 0x32#8, 0x33#8][2] := by
  decide

theorem witness_PacketCarriesItsChecksum :
    ∃ h : 9 < samplePacket.covered.length, (0x02#8 : Byte) ≠ samplePacket.covered[9] := by decide

theorem witness_EveryCommandCompletes :
    Inv pair ∧ Instr.wellFormed pair.config (.rbInit 1) = true ∧
      Instr.wellFormed pair.config (.rbPush 1 255) = true ∧
      Instr.wellFormed pair.config (.rbPop 1) = true ∧
      Instr.wellFormed pair.config (.rbStatus 1) = true ∧
      Instr.wellFormed pair.config .crcInit = true ∧
      Instr.wellFormed pair.config (.crcUpdate 0xFF#8) = true ∧
      Instr.wellFormed pair.config .crcFinal = true := by decide

theorem witness_StepKeepsTheStateSound : Inv pair ∧ ∃ t, step pair = .next t := ⟨by decide, _, rfl⟩

theorem witness_ResetIsSound : Config.accepted [cfg 1, cfg 256] = true := by decide

theorem witness_SoundBlockNeverStops : Inv pair ∧ Inv (block 4 emptyRing) := by decide

theorem witness_ParametersNeverChange :
    (∃ t, exec (.rbPush 0 255) pair = .next t) ∧ ∃ t, step pair = .next t := ⟨⟨_, rfl⟩, _, rfl⟩

theorem witness_UnitsShareNoState :
    ((∃ t, exec (RingOp.pop.on 0) (holding []) = .next t) ∧
        pair.units[0]? = (holding []).units[0]? ∧ pair.units[1]? ≠ (holding []).units[1]?) ∧
      (Instr.crcFinal.port = .crc ∧ (∃ t, exec .crcFinal (holding []) = .next t) ∧
        pair.acc = (holding []).acc ∧ pair.units ≠ (holding []).units) :=
  ⟨⟨⟨_, rfl⟩, by decide, by decide⟩, rfl, ⟨_, rfl⟩, by decide, by decide⟩

theorem witness_CommandsOnDifferentUnitsCommute :
    ((Instr.rbPop 0).port.sameUnit (Instr.rbPop 1).port = false ∧
        ∃ t, execAll [.rbPop 0, .rbPop 1] pair = .next t) ∧
      ((Instr.rbPush 1 255).port.sameUnit Instr.crcInit.port = false ∧
        ∃ t, execAll [.rbPush 1 255, .crcInit] pair = .next t) :=
  ⟨⟨rfl, _, rfl⟩, rfl, _, rfl⟩

theorem witness_IdempotentCommands :
    (∃ t, exec (.rbInit 1) pair = .next t) ∧ (∃ t, exec .crcInit pair = .next t) ∧
      (∃ t, exec (.rbStatus 1) pair = .next t) ∧ ∃ t, exec .crcFinal pair = .next t :=
  ⟨⟨_, rfl⟩, ⟨_, rfl⟩, ⟨_, rfl⟩, _, rfl⟩

theorem witness_FaultLogIsAppendOnlyAndUnread :
    (∃ t, step pair = .next t) ∧ ∃ t, step (holding [.crc 0x43#8 0x00#8]) = .next t :=
  ⟨⟨_, rfl⟩, _, rfl⟩

theorem witness_OneResponsePerCommand :
    (present pair).held = .prod 0 0x01#8 255 :: [.crc 0x43#8 0x00#8, .cons 0 0x02#8, .cons 1 0x00#8] ∧
      ∃ t, step pair = .next t :=
  ⟨rfl, _, rfl⟩

theorem witness_WaitingCommandIsServedInTurn :
    Inv pair ∧ pair.held = [.prod 0 0x01#8 255, .crc 0x43#8 0x00#8] ++ .cons 0 0x02#8 :: [] := by
  decide

theorem witness_CommandsAreNeverLost :
    (∃ t, step pair = .next t) ∧ (∃ t, step (holding []) = .next t) ∧ (present (holding [])).held = [] :=
  ⟨⟨_, rfl⟩, ⟨_, rfl⟩, rfl⟩

/-- One instance for each of the four cases, at the bounds. -/
def badConfigs : List RingConfig :=
  [{ cfg 4 with producers := 2 }, { cfg 4 with producers := 0 }, { cfg 4 with consumers := 2 },
    { cfg 4 with consumers := 0 }, cfg 0, cfg (2 ^ 30)]

theorem witness_UnacceptedConfigurationIsRefused :
    ({ block 4 two with units := [] } : State).units = [] ∧ ∀ c ∈ badConfigs,
      ({ cfg := c, ring := two } : RingUnit) ∈
        ({ block 4 two with units := [{ cfg := c, ring := two }] } : State).units ∧
      (c.producers ≠ 1 ∨ c.consumers ≠ 1 ∨ c.cap = 0 ∨ 2 ^ 30 - 1 < c.cap) := by decide

theorem witness_ResetState :
    Config.accepted [cfg 1, cfg 4] = true ∧ 1 < [cfg 1, cfg 4].length ∧
      [cfg 1, cfg 4][1]? = some (cfg 4) ∧
      StorageWf (cfg 4) { RingBuf.reset (cfg 4) with buf := [255, 1, 2, 3] } := by decide

theorem witness_WholeBlockResetIsEveryInit :
    pair.units[1]? = some { cfg := cfg 4, ring := fullRing } ∧ (cfg 4).accepted = true ∧
      pair.config.accepted = true := by decide

theorem witness_AssembledCommandsAreWellFormed :
    ([cfg 256, cfg 32] ≠ [] ∧ standardNames.length ≤ [cfg 256, cfg 32].length ∧
        assembleLine standardNames [cfg 256, cfg 32]
          ['R', 'B', '_', 'B', 'Y', 'T', 'E', '.', 'P', 'U', 'S', 'H', ' ', '0', 'x', '1', '1'] =
            .ok (some (.rbPush 0 0x11))) ∧
      (AddressesRing standardNames ['R', 'B', '_', 'B', 'U', 'S'] 1 ∧
        AddressesRing standardNames ['R', 'B'] 0 ∧
        literalValue ['2', '5', '5'] = some 255 ∧ Config.fits [cfg 256, cfg 32] 1 255 = true ∧
        literalValue ['0', 'x', '1', '0', '0'] = some 256 ∧
        Config.fits [cfg 256, cfg 32] 1 256 = false) ∧
      ([' ', '\t'] ≠ [] ∧ ∀ c ∈ [' ', '\t'], c = ' ' ∨ c = '\t') ∧
      LineEnd [] ∧ LineEnd [' ', ';', 'x'] :=
  ⟨by decide, ⟨.inr ⟨rfl, by simp [standardNames], by simp, by simp, by simp⟩, .inl (by decide),
      by decide, by decide, by decide, by decide⟩,
    by simp, ⟨[], [], rfl, by simp, .inl rfl⟩,
    ⟨[' '], [';', 'x'], rfl, by simp, .inr ⟨['x'], rfl⟩⟩⟩

end Sys2Proof.Tests
end

section
/-! PROOFS of the state family (10_state.md): what a completed command, a served request and a step can
do to the state, said once; then the statements about soundness, frames, slots, the count, the status
word, the units' independence and the fault log. -/

namespace Sys2Proof.Machine

/-! ### What a completed command can do -/

section Exec

variable {i : Instr} {o : RingOp} {k : Nat} {s t : State}

/-- All that a ring buffer command can do when it goes on. -/
theorem exec_on_eq_next : exec (o.on k) s = .next t ↔ ∃ u r v, s.units[k]? = some u ∧
    u.cfg.accepted = true ∧ ringOp o u.cfg u.ring = .next (r, v) ∧
    t = (s.setRing k r).respond (o.port k) v := by
  rw [exec_on, onRing_eq_next]

/-- All that any command can do when it goes on: replace one ring as its ring operation says, or change
`acc` as its CRC operation says, and answer once. -/
theorem exec_next_cases (h : exec i s = .next t) :
    (∃ k o u r v, i = RingOp.on k o ∧ s.units[k]? = some u ∧ u.cfg.accepted = true ∧
      ringOp o u.cfg u.ring = .next (r, v) ∧ t = (s.setRing k r).respond (o.port k) v) ∨
    (i.port = .crc ∧
      t = State.respond { s with acc := crcAcc i s.acc } .crc (crcAnswer i s.acc)) := by
  rcases instr_cases i with ⟨k, o, rfl⟩ | hp
  · obtain ⟨u, r, v, hu, ha, hr, ht⟩ := exec_on_eq_next.1 h
    exact .inl ⟨k, o, u, r, v, rfl, hu, ha, hr, ht⟩
  · rw [exec_crc hp, Host.Outcome.next.injEq] at h
    exact .inr ⟨hp, h.symm⟩

/-- On an accepted unit with a known ring, a completed ring buffer command did what its ring
operation says to that ring. -/
theorem exec_on_of_hasRing {c : RingConfig} {r : RingBuf} (hr : HasRing s k c r)
    (h : exec (o.on k) s = .next t) :
    ∃ r' v, ringOp o c r = .next (r', v) ∧ t = (s.setRing k r').respond (o.port k) v := by
  obtain ⟨u, r', v, hu, -, hop, ht⟩ := exec_on_eq_next.1 h
  obtain rfl : { cfg := c, ring := r } = u := Option.some.inj (hr.1.symm.trans hu)
  exact ⟨r', v, hop, ht⟩

/-- No command touches the parameters, the fault log or the ports (10_state.md R35, R36). -/
theorem exec_frame (h : exec i s = .next t) : t.config = s.config ∧ t.faultLog = s.faultLog ∧
    t.held = s.held ∧ t.arrivals = s.arrivals := by
  rcases exec_next_cases h with ⟨k, o, u, r, v, -, -, -, -, rfl⟩ | ⟨-, rfl⟩
  · simp
  · exact ⟨rfl, rfl, rfl, rfl⟩

/-- The responses that a state answered once more has gained over `s`. -/
theorem newResponses_respond {u : State} (h : u.responses = s.responses) (p : Port)
    (v : Response) : newResponses s (u.respond p v) = [{ port := p, rsp := v }] := by
  simp [newResponses, h]

/-- The ring that a completed ring buffer command leaves in its unit, and the one response it
gives, are those of its ring operation. -/
theorem ringOp_of_exec_on {c : RingConfig} {r r' : RingBuf} {p : Port} {v : Response}
    (hr : HasRing s k c r) (h : exec (o.on k) s = .next t)
    (ht : t.units[k]? = some { cfg := c, ring := r' })
    (hnew : newResponses s t = [{ port := p, rsp := v }]) : ringOp o c r = .next (r', v) := by
  obtain ⟨r₁, v₁, hop, rfl⟩ := exec_on_of_hasRing hr h
  rw [newResponses_respond (setRing_responses s k r₁)] at hnew
  rw [respond_units, setRing_get_self s hr.1 r₁] at ht
  cases hnew
  cases ht
  exact hop

/-- A unit after a ring was replaced is an old one, or the replaced one with its new ring. -/
theorem mem_setRing_units {r : RingBuf} {u' : RingUnit} (h : u' ∈ (s.setRing k r).units) :
    u' ∈ s.units ∨ ∃ u, s.units[k]? = some u ∧ u' = { u with ring := r } := by
  obtain ⟨j, hj⟩ := List.mem_iff_getElem?.1 h
  by_cases hjk : j = k
  · subst hjk
    rw [setRing_units, List.getElem?_modify_eq, Option.map_eq_map, Option.map_eq_some_iff] at hj
    obtain ⟨u, hu, rfl⟩ := hj
    exact .inr ⟨u, hu, rfl⟩
  · rw [setRing_get_ne s hjk] at hj
    exact .inl (List.mem_iff_getElem?.2 ⟨j, hj⟩)

/-- What every ring operation keeps true of a ring, every completed command keeps true of all. -/
theorem exec_keeps_rings {P : RingConfig → RingBuf → Prop}
    (hP : ∀ o c r r' v, c.accepted = true → P c r → ringOp o c r = .next (r', v) → P c r')
    (h : exec i s = .next t) (hs : ∀ u ∈ s.units, P u.cfg u.ring) :
    ∀ u ∈ t.units, P u.cfg u.ring := by
  rcases exec_next_cases h with ⟨k, o, u, r, v, -, hu, ha, hr, rfl⟩ | ⟨-, rfl⟩
  · intro u' hu'
    rcases mem_setRing_units hu' with hold | ⟨w, hw, rfl⟩
    · exact hs u' hold
    · obtain rfl : u = w := Option.some.inj (hu.symm.trans hw)
      exact hP o _ _ _ v ha (hs u (List.mem_of_getElem? hu)) hr
  · exact hs

/-- No command reads the fault log: with another log it does the same and leaves that log. -/
theorem exec_with_faultLog (h : exec i s = .next t) (l : List FaultRecord) :
    exec i { s with faultLog := l } = .next { t with faultLog := l } := by
  rcases exec_next_cases h with ⟨k, o, u, r, v, rfl, hu, ha, hr, rfl⟩ | ⟨hp, rfl⟩
  · exact exec_on_eq_next.2 ⟨u, r, v, hu, ha, hr, rfl⟩
  · exact exec_crc hp _

end Exec

/-! ### What a served request and a step can do -/

section Serve

variable {q : Request} {s t : State}

/-- Serving a request touches neither the parameters nor the ports. -/
theorem serve_frame (h : serve q s = .next t) :
    t.config = s.config ∧ t.held = s.held ∧ t.arrivals = s.arrivals := by
  obtain ⟨-, ⟨i, -, hi⟩ | ⟨c, -, rfl⟩⟩ := serve_eq_next.1 h
  · obtain ⟨hc, -, hh, ha⟩ := exec_frame hi
    exact ⟨hc, hh, ha⟩
  · simp

/-- Serving a request adds a record to the fault log, or none. -/
theorem serve_faultLog (h : serve q s = .next t) :
    ∃ l, t.faultLog = s.faultLog ++ l ∧ l.length ≤ 1 := by
  obtain ⟨-, ⟨i, -, hi⟩ | ⟨c, -, rfl⟩⟩ := serve_eq_next.1 h
  · obtain ⟨-, hl, -, -⟩ := exec_frame hi
    exact ⟨[], by simp [hl]⟩
  · exact ⟨_, raise_faultLog .., Nat.le_refl 1⟩

/-- Serving does not read the fault log: with another log it differs in the log alone. -/
theorem serve_with_faultLog (h : serve q s = .next t) (l : List FaultRecord) :
    ∃ l', serve q { s with faultLog := l } = .next { t with faultLog := l' } := by
  obtain ⟨hp, ⟨i, hd, hi⟩ | ⟨c, hd, rfl⟩⟩ := serve_eq_next.1 h
  · exact ⟨l, serve_eq_next.2 ⟨hp, .inl ⟨i, hd, exec_with_faultLog hi l⟩⟩⟩
  · exact ⟨_, serve_error (c := c) (s := { s with faultLog := l }) hp hd⟩

/-- What arrives does not depend on the fault log. -/
theorem present_with_faultLog (s : State) (l : List FaultRecord) :
    present { s with faultLog := l } = { present s with faultLog := l } := by
  obtain ⟨units, acc, log, responses, held, arrivals⟩ := s
  cases arrivals <;> rfl

/-- A step changes the parameters of no unit (10_state.md R35). -/
theorem step_config (h : step s = .next t) : t.config = s.config := by
  obtain ⟨-, ⟨-, rfl⟩ | ⟨q, rest, -, hs⟩⟩ := step_eq_next.1 h
  · exact present_config s
  · exact (serve_frame hs).1.trans (present_config s)

/-- A step adds a record to the fault log, or none (10_state.md R36). -/
theorem step_faultLog (h : step s = .next t) :
    ∃ l, t.faultLog = s.faultLog ++ l ∧ l.length ≤ 1 := by
  obtain ⟨-, ⟨-, rfl⟩ | ⟨q, rest, -, hs⟩⟩ := step_eq_next.1 h
  · exact ⟨[], by simp⟩
  · simpa using serve_faultLog hs

/-- A step does not read the fault log: with another log it differs in the log alone. -/
theorem step_with_faultLog (h : step s = .next t) (l : List FaultRecord) :
    ∃ l', step { s with faultLog := l } = .next { t with faultLog := l' } := by
  obtain ⟨ha, ⟨hn, rfl⟩ | ⟨q, rest, hq, hs⟩⟩ := step_eq_next.1 h
  · refine ⟨l, step_eq_next.2 ⟨ha, .inl ?_⟩⟩
    rw [present_with_faultLog]
    exact ⟨hn, rfl⟩
  · obtain ⟨l', hl'⟩ := serve_with_faultLog hs l
    refine ⟨l', step_eq_next.2 ⟨ha, .inr ⟨q, rest, ?_⟩⟩⟩
    rw [present_with_faultLog]
    exact ⟨hq, hl'⟩

end Serve

/-! ### Soundness, from operation to step -/

section Soundness

variable {q : Request} {rest : List Request} {s t : State}

/-- Presenting what arrives keeps a sound state sound: no request is made and a port takes one. -/
theorem present_inv (h : Inv s) : Inv (present s) := by
  obtain ⟨hc, hu, ho, hn⟩ := h
  refine ⟨by simpa using hc, by simpa using hu, fun r hr => ?_, present_nodup s hn⟩
  simpa using ho r ((present_outstanding_perm s).mem_iff.1 hr)

/-- Taking the first held command off its port keeps a sound state sound. -/
theorem takeHeld_inv (h : Inv s) (hq : s.held = q :: rest) : Inv { s with held := rest } := by
  obtain ⟨hc, hu, ho, hn⟩ := h
  rw [hq, List.map_cons, List.nodup_cons] at hn
  refine ⟨hc, hu, fun r hr => ho r ?_, hn.2⟩
  rw [State.outstanding, hq]
  exact List.mem_cons_of_mem q hr

/-- Serving keeps every ring sound: a fault changes none, a command as its ring operation does. -/
theorem serve_keeps_rings (h : serve q s = .next t) (hs : ∀ u ∈ s.units, RingWf u.cfg u.ring) :
    ∀ u ∈ t.units, RingWf u.cfg u.ring := by
  obtain ⟨-, ⟨i, -, hi⟩ | ⟨c, -, rfl⟩⟩ := serve_eq_next.1 h
  · exact exec_keeps_rings (P := RingWf)
      (fun _ _ _ _ _ ha hw hop => ringOp_wf (accepted_cap ha).1 hw hop) hi hs
  · exact hs

/-- Serving a request keeps a sound state sound. -/
theorem serve_inv (h : Inv s) (hs : serve q s = .next t) : Inv t := by
  obtain ⟨hc, hu, ho, hn⟩ := h
  obtain ⟨hcfg, hheld, harr⟩ := serve_frame hs
  refine ⟨by rwa [hcfg], serve_keeps_rings hs hu, ?_, by rwa [hheld]⟩
  rwa [State.outstanding, hheld, harr, hcfg]

/-- A step keeps a sound state sound. -/
theorem step_inv (h : Inv s) (hs : step s = .next t) : Inv t := by
  obtain ⟨-, ⟨-, rfl⟩ | ⟨q, rest, hq, hserve⟩⟩ := step_eq_next.1 hs
  · exact present_inv h
  · exact serve_inv (takeHeld_inv (present_inv h) hq) hserve

end Soundness

/-! ### What a ring operation reads and writes of its ring -/

section Ring

variable {o : RingOp} {c : RingConfig} {r r' p p' : RingBuf} {v : Response} {x : Item} {j : Nat}

/-- A ring operation that changes a slot is a push answered ACK, and the slot is the one `head` named,
which now holds the operand (10_state.md R24). -/
theorem ringOp_changed_slot (h : ringOp o c r = .next (r', v)) (hj : r'.buf[j]? ≠ r.buf[j]?) :
    ∃ x, o = .push x ∧ j = r.head ∧ r'.buf[j]? = some x ∧ v = .ack := by
  cases o with
  | init => obtain ⟨rfl, -⟩ := (ringInit_eq_next (c := c)).1 h; exact absurd rfl hj
  | push x =>
    obtain ⟨-, ⟨-, rfl, -⟩ | ⟨-, hl, rfl, rfl⟩⟩ := ringPush_eq_next.1 h
    · exact absurd rfl hj
    · obtain rfl : r.head = j := by
        by_contra hne
        exact hj (List.getElem?_set_ne hne)
      exact ⟨x, rfl, rfl, List.getElem?_set_self hl, rfl⟩
  | pop => obtain ⟨-, rfl, -⟩ | ⟨-, y, -, rfl, -⟩ := ringPop_eq_next.1 h <;> exact absurd rfl hj
  | status => obtain ⟨rfl, -⟩ := ringStatus_eq_next.1 h; exact absurd rfl hj

/-- Every ring operation but a push leaves `buf`. -/
theorem ringOp_buf_of_not_push (h : ringOp o c r = .next (r', v)) (ho : ∀ x, o ≠ .push x) :
    r'.buf = r.buf := by
  refine List.ext_getElem? fun j => ?_
  by_contra hj
  obtain ⟨x, hx, -⟩ := ringOp_changed_slot h hj
  exact ho x hx

/-- Every ring operation leaves the slots that `head` does not name. -/
theorem ringOp_slot_ne_head (h : ringOp o c r = .next (r', v)) (hj : j ≠ r.head) :
    r'.buf[j]? = r.buf[j]? := by
  by_contra hne
  obtain ⟨x, -, hx, -⟩ := ringOp_changed_slot h hne
  exact hj hx

/-- A pop leaves `head` (10_state.md R21). -/
theorem ringPop_head (h : ringPop c r = .next (r', v)) : r'.head = r.head := by
  obtain ⟨-, rfl, -⟩ | ⟨-, y, -, rfl, -⟩ := ringPop_eq_next.1 h <;> rfl

/-- A push leaves `tail` (10_state.md R22). -/
theorem ringPush_tail (h : ringPush x c r = .next (r', v)) : r'.tail = r.tail := by
  obtain ⟨-, ⟨-, rfl, -⟩ | ⟨-, -, rfl, -⟩⟩ := ringPush_eq_next.1 h <;> rfl

/-- Every ring operation keeps that `full` implies `head = tail` (10_state.md R25). -/
theorem ringOp_full_meets (h : ringOp o c r = .next (r', v)) (hr : r.full = true → r.head = r.tail) :
    r'.full = true → r'.head = r'.tail := by
  cases o with
  | init => obtain ⟨rfl, -⟩ := (ringInit_eq_next (c := c)).1 h; exact fun _ => rfl
  | push x =>
    obtain ⟨-, ⟨-, rfl, -⟩ | ⟨hf, -, rfl, -⟩⟩ := ringPush_eq_next.1 h
    · exact hr
    · simp [pushed, hf]
  | pop =>
    obtain ⟨-, rfl, -⟩ | ⟨-, y, -, rfl, -⟩ := ringPop_eq_next.1 h
    · exact hr
    · simp [poppedRing]
  | status => obtain ⟨rfl, -⟩ := ringStatus_eq_next.1 h; exact hr

/-- Two rings that agree on `head`, `tail` and `full`: all that a ring holds but its storage. -/
abbrev SameRegisters (r p : RingBuf) : Prop :=
  p.head = r.head ∧ p.tail = r.tail ∧ p.full = r.full

theorem SameRegisters.isEmpty (h : SameRegisters r p) : p.isEmpty = r.isEmpty := by
  obtain ⟨hh, ht, hf⟩ := h
  simp [RingBuf.isEmpty, hh, ht, hf]

theorem SameRegisters.statusWord (h : SameRegisters r p) : p.statusWord c = r.statusWord c := by
  have he := h.isEmpty
  obtain ⟨hh, ht, hf⟩ := h
  simp [RingBuf.statusWord, RingBuf.count, he, hh, ht, hf]

theorem SameRegisters.pushed (h : SameRegisters r p) :
    SameRegisters (pushed c r x) (pushed c p x) := by
  obtain ⟨hh, ht, hf⟩ := h
  simp [SameRegisters, Machine.pushed, hh, ht, hf]

theorem SameRegisters.poppedRing (h : SameRegisters r p) :
    SameRegisters (poppedRing c r) (poppedRing c p) := by
  obtain ⟨hh, ht, -⟩ := h
  simp [SameRegisters, Machine.poppedRing, hh, ht]

/-- A ring operation answers the same, and leaves the same registers, on any sound storage that agrees
on the slot `tail` names where a pop returns an item (10_state.md R24). -/
theorem ringOp_sameRegisters (hreg : SameRegisters r p) (hp : RingWf c p)
    (hslot : o = .pop → r.isEmpty = false → p.buf[r.tail]? = r.buf[r.tail]?)
    (h : ringOp o c r = .next (r', v)) :
    ∃ p', ringOp o c p = .next (p', v) ∧ SameRegisters r' p' := by
  have he := hreg.isEmpty
  have ⟨_, htail, hfull⟩ := hreg
  cases o with
  | init =>
    obtain ⟨rfl, rfl⟩ := (ringInit_eq_next (c := c)).1 h
    exact ⟨emptied p, rfl, rfl, rfl, rfl⟩
  | push x =>
    obtain ⟨hx, ⟨hf, rfl, rfl⟩ | ⟨hf, -, rfl, rfl⟩⟩ := ringPush_eq_next.1 h
    · exact ⟨p, ringPush_eq_next.2 ⟨hx, .inl ⟨hfull.trans hf, rfl, rfl⟩⟩, hreg⟩
    · obtain ⟨⟨hlen, -⟩, hhead, -⟩ := hp
      exact ⟨pushed c p x,
        ringPush_eq_next.2 ⟨hx, .inr ⟨hfull.trans hf, hlen ▸ hhead, rfl, rfl⟩⟩, hreg.pushed⟩
  | pop =>
    obtain ⟨hr, rfl, rfl⟩ | ⟨hr, y, hy, rfl, rfl⟩ := ringPop_eq_next.1 h
    · exact ⟨p, ringPop_eq_next.2 (.inl ⟨he.trans hr, rfl, rfl⟩), hreg⟩
    · have hy' : p.buf[p.tail]? = some y := by rw [htail, hslot rfl hr, hy]
      exact ⟨poppedRing c p, ringPop_eq_next.2 (.inr ⟨he.trans hr, y, hy', rfl, rfl⟩),
        hreg.poppedRing⟩
  | status =>
    obtain ⟨rfl, rfl⟩ := ringStatus_eq_next.1 h
    exact ⟨p, ringStatus_eq_next.2 ⟨rfl, by rw [hreg.statusWord]⟩, hreg⟩

/-- A push answered ACK found the buffer not full, and stored its operand. -/
theorem ringPush_ack (h : ringPush x c r = .next (r', .ack)) :
    x < 2 ^ c.elemBits ∧ r.full = false ∧ r' = pushed c r x := by
  obtain ⟨hx, ⟨-, -, hv⟩ | ⟨hf, -, hr, -⟩⟩ := ringPush_eq_next.1 h
  · cases hv
  · exact ⟨hx, hf, hr⟩

/-- A pop answered with an item found the buffer not empty, and took the item at `tail`. -/
theorem ringPop_item (h : ringPop c r = .next (r', .item x)) :
    r.isEmpty = false ∧ r' = poppedRing c r := by
  obtain ⟨-, -, hv⟩ | ⟨he, y, -, hr, -⟩ := ringPop_eq_next.1 h
  · cases hv
  · exact ⟨he, hr⟩

/-- The count is 0 exactly when the buffer is empty (10_state.md R27). -/
theorem count_eq_zero (hw : RingWf c r) : r.count c = 0 ↔ r.head = r.tail ∧ r.full = false := by
  have hc : 0 < c.cap := Nat.zero_lt_of_lt hw.2.1
  rw [← length_content, List.length_eq_zero_iff, content_eq_nil hc hw, ringEmpty_iff]

/-- The count is `CAP` exactly when the buffer is full (10_state.md R27). -/
theorem count_eq_cap (hw : RingWf c r) : r.count c = c.cap ↔ r.full = true := by
  rw [← length_content, length_content_eq_cap hw]

/-- A field of one bit is the bit it stands on. -/
theorem extractLsb'_one_eq_ite {w : Nat} (a : BitVec w) (n : Nat) :
    a.extractLsb' n 1 = if a.getLsbD n then 1#1 else 0#1 := by
  rw [BitVec.getLsbD_eq_extractLsb']
  rcases BitVec.eq_zero_or_eq_one (a.extractLsb' n 1) with h | h <;> simp [h]

/-- `COUNT`, bits 31:2 of the status word, is the count (10_state.md R29). -/
theorem statusWord_count (h : r.count c < 2 ^ 30) :
    ((r.statusWord c).extractLsb' 2 30).toNat = r.count c := by
  have hlow : r.full.toNat + r.isEmpty.toNat ≤ 1 := full_add_isEmpty
  rw [BitVec.extractLsb'_toNat, statusWord_toNat h, Nat.shiftRight_eq_div_pow]
  omega

/-- `EMPTY` and `FULL` are never both 1 (10_state.md R29). -/
theorem not_isEmpty_and_full : ¬(r.isEmpty = true ∧ r.full = true) := by
  rintro ⟨he, hf⟩
  obtain ⟨-, hn⟩ := ringEmpty_iff.1 he
  rw [hf] at hn
  cases hn

end Ring

end Sys2Proof.Machine

/-! ### The statements -/

open Sys2Proof Sys2Proof.Machine

/-- Settles O46: presenting, taking the first held command and serving it each keep soundness. -/
theorem stepKeepsTheStateSound : Obligations.StepKeepsTheStateSound := by
  unfold Obligations.StepKeepsTheStateSound
  exact fun s t h hs => step_inv h hs

/-- Settles O14, from the inversion of a ring buffer command and the frame of its ring operation. -/
theorem ringCommandsFrame : Obligations.RingCommandsFrame := by
  unfold Obligations.RingCommandsFrame
  intro k o s t h
  obtain ⟨u, r, v, hu, -, hr, rfl⟩ := exec_on_eq_next.1 h
  refine ⟨rfl, rfl, rfl, rfl, setRing_length s k r, fun j hj => setRing_get_ne s hj r,
    u, { u with ring := r }, hu, setRing_get_self s hu r, rfl, ringOp_buf_of_not_push hr,
    fun j => ringOp_slot_ne_head hr, ?_, ?_, ?_⟩
  · rintro rfl
    exact ringPop_head hr
  · rintro ⟨x, rfl⟩
    exact ringPush_tail hr
  · rintro rfl
    obtain ⟨rfl, -⟩ := ringStatus_eq_next.1 hr
    rfl

/-- Settles O15: a slot that differs lies in the addressed unit, where only an accepted push writes;
and no ring operation reads the storage but a pop its slot at `tail`. -/
theorem onlyPushWritesASlotOnlyPopReadsOne : Obligations.OnlyPushWritesASlotOnlyPopReadsOne := by
  unfold Obligations.OnlyPushWritesASlotOnlyPopReadsOne
  refine ⟨?_, ?_, fun s h u hu => (h.2.1 u hu).1⟩
  · intro i s t k u u' j h hu hu' hj
    have hne : t.units[k]? ≠ s.units[k]? := by
      rw [hu, hu', ne_eq, Option.some.injEq]
      rintro rfl
      exact hj rfl
    rcases exec_next_cases h with ⟨l, o, w, r, v, rfl, hw, -, hr, rfl⟩ | ⟨-, rfl⟩
    · obtain rfl : k = l := by
        by_contra hkl
        exact hne (setRing_get_ne s hkl r)
      obtain rfl : u = w := Option.some.inj (hu.symm.trans hw)
      obtain rfl : { u with ring := r } = u' :=
        Option.some.inj ((setRing_get_self s hu r).symm.trans hu')
      obtain ⟨x, rfl, hhead, hx, rfl⟩ := ringOp_changed_slot hr hj
      exact ⟨x, rfl, hhead, hx, newResponses_respond (setRing_responses s k r) _ _⟩
    · exact absurd rfl hne
  · intro o s t k c r p hr hh ht hf hp hslot h
    have ⟨hu, ha, _⟩ := hr
    obtain ⟨r', v, hop, rfl⟩ := exec_on_of_hasRing hr h
    obtain ⟨p', hop', hreg⟩ := ringOp_sameRegisters ⟨hh, ht, hf⟩ hp hslot hop
    have hp' : HasRing (s.setRing k p) k c p := ⟨setRing_get_self s hu p, ha, hp⟩
    exact ⟨_, (hasRing_exec hp' hop').1, rfl, _, _, setRing_get_self s hu r',
      setRing_get_self _ hp'.1 p', hreg⟩

/-- Settles O17: every ring operation keeps it of its ring, and a ring at reset is not full. -/
theorem fullImpliesHeadMeetsTail : Obligations.FullImpliesHeadMeetsTail := by
  unfold Obligations.FullImpliesHeadMeetsTail
  refine ⟨fun i s t h => exec_keeps_rings (P := fun _ r => r.full = true → r.head = r.tail)
    (fun _ _ _ _ _ _ hr hop => ringOp_full_meets hop hr) h, fun cs u hu hf => ?_⟩
  obtain ⟨c, -, rfl⟩ := List.mem_map.1 hu
  cases hf

/-- Settles O18: the count of a sound ring, and the rings that an accepted push and a pop leave. -/
theorem countMatchesPushesAndPops : Obligations.CountMatchesPushesAndPops := by
  unfold Obligations.CountMatchesPushesAndPops
  refine ⟨fun c r hw => ⟨count_le hw, count_eq_zero hw, count_eq_cap hw, rfl⟩, ?_⟩
  intro s t k c r r' x hr ht
  have hc : 0 < c.cap := hasRing_cap hr
  have ⟨_, _, hw⟩ := hr
  refine ⟨fun h hnew => ?_, fun y h hnew => ?_⟩
  · obtain ⟨hx, hf, rfl⟩ := ringPush_ack (ringOp_of_exec_on (o := .push x) hr h ht hnew)
    exact count_pushed hc hw hx hf
  · obtain ⟨he, rfl⟩ := ringPop_item (ringOp_of_exec_on (o := .pop) hr h ht hnew)
    exact count_popped hc hw he

/-- Settles O19, field by field of the status word. -/
theorem statusWordFields : Obligations.StatusWordFields := by
  unfold Obligations.StatusWordFields
  intro c r ha hw
  have hcount : r.count c < 2 ^ 30 := Nat.lt_of_le_of_lt (count_le hw) (accepted_cap ha).2
  rw [extractLsb'_one_eq_ite, extractLsb'_one_eq_ite, statusWord_bit0, statusWord_bit1]
  exact ⟨rfl, rfl, statusWord_count hcount, not_isEmpty_and_full⟩

/-- Settles O36, from the one shape of the CRC commands. -/
theorem crcCommandsFrame : Obligations.CrcCommandsFrame := by
  unfold Obligations.CrcCommandsFrame
  intro i s t hp h
  rw [exec_crc hp, Host.Outcome.next.injEq] at h
  subst h
  refine ⟨rfl, rfl, rfl, rfl, ?_⟩
  rintro rfl
  rfl

/-- Settles O49, from the frame of a command and of a step. -/
theorem parametersNeverChange : Obligations.ParametersNeverChange := by
  unfold Obligations.ParametersNeverChange
  exact ⟨fun i s t h => (exec_frame h).1, fun s t h => step_config h⟩

/-- Settles O50: a ring buffer command is a function of its own unit, a CRC command of `acc`. -/
theorem unitsShareNoState : Obligations.UnitsShareNoState := by
  unfold Obligations.UnitsShareNoState
  constructor
  · intro o k s s' t h hk
    obtain ⟨u, r, v, hu, ha, hr, rfl⟩ := exec_on_eq_next.1 h
    have hu' : s'.units[k]? = some u := hk.trans hu
    refine ⟨_, exec_on_eq_next.2 ⟨u, r, v, hu', ha, hr, rfl⟩, ?_, ?_, rfl,
      fun j hj => setRing_get_ne s' hj r⟩
    · exact (setRing_get_self s' hu' r).trans (setRing_get_self s hu r).symm
    · exact (newResponses_respond rfl _ v).trans (newResponses_respond rfl _ v).symm
  · intro i s s' t hp h hacc
    rw [exec_crc hp, Host.Outcome.next.injEq] at h
    subst h
    refine ⟨_, exec_crc hp s', ?_, ?_, rfl⟩
    · rw [respond_acc, respond_acc, hacc]
    · rw [hacc]
      exact (newResponses_respond rfl _ _).trans (newResponses_respond rfl _ _).symm

/-- Settles O53: serving appends the record of a fault, or none, and reads no record. -/
theorem faultLogIsAppendOnlyAndUnread : Obligations.FaultLogIsAppendOnlyAndUnread := by
  unfold Obligations.FaultLogIsAppendOnlyAndUnread
  refine ⟨fun s t h => step_faultLog h, fun s t l h => ?_⟩
  obtain ⟨l', hl'⟩ := step_with_faultLog h l
  exact ⟨_, hl', ⟨rfl, rfl⟩, rfl, rfl, rfl⟩

end

section
/-! PROOFS of the memory family (20_memory.md): a ring under any list of commands is a bounded queue,
bit for bit; the CRC takes its input bits one at a time; the commands of a sound block complete, on
different units they commute; and the ports lose and overtake none. -/

namespace Sys2Proof.Machine

/-! ### A ring under commands is a bounded queue -/

/-- The ring that `HasRing` speaks of is sound. -/
theorem hasRing_wf {c : RingConfig} {r : RingBuf} {s : State} {k : Nat} (h : HasRing s k c r) :
    RingWf c r := by
  obtain ⟨-, -, hw⟩ := h
  exact hw

section Queue

variable {c : RingConfig} {r r' : RingBuf} {o : RingOp} {v : Response} {k : Nat} {s t : State}
  {f : Item → Item} {os : List RingOp}

/-- A ring operation does to the content, and answers, what the bounded queue does (R85). -/
theorem ringOp_queueStep (hc : 0 < c.cap) (hw : RingWf c r) (h : ringOp o c r = .next (r', v)) :
    queueStep c o (r.content c) = (r'.content c, v) := by
  cases o with
  | init =>
    obtain ⟨rfl, rfl⟩ := (ringInit_eq_next (c := c)).1 h
    simp [queueStep]
  | push x =>
    obtain ⟨hx, ⟨hf, rfl, rfl⟩ | ⟨hf, -, rfl, rfl⟩⟩ := ringPush_eq_next.1 h
    · simp [queueStep, length_content_eq_cap hw, hf]
    · simp [queueStep, length_content_eq_cap hw, hf, content_pushed hc hw hx hf]
  | pop =>
    obtain ⟨he, rfl, rfl⟩ | ⟨he, y, hy, rfl, rfl⟩ := ringPop_eq_next.1 h
    · simp [queueStep, (content_eq_nil hc hw).2 he]
    · simp [queueStep, content_popped hc hw he hy]
  | status =>
    obtain ⟨rfl, rfl⟩ := ringStatus_eq_next.1 h
    simp [queueStep, RingBuf.statusWord, length_content, count_eq_cap hw, content_eq_nil hc hw]

/-- The responses `vs` to the commands `os`, each with the port its command came on. -/
def portResponses (k : Nat) (os : List RingOp) (vs : List Response) : List PortResponse :=
  List.zipWith (fun o v => { port := o.port k, rsp := v }) os vs

@[simp] theorem portResponses_cons (vs : List Response) :
    portResponses k (o :: os) (v :: vs) = { port := o.port k, rsp := v } :: portResponses k os vs :=
  rfl

/-- The queue answers every command. -/
theorem portResponses_queueRun_map_rsp (q : List Item) :
    (portResponses k os (queueRun c os q).2).map PortResponse.rsp = (queueRun c os q).2 := by
  induction os generalizing q with
  | nil => rfl
  | cons o os ih => simp [queueRun, ih]

/-- A completed list of commands on a sound ring leaves the queue's content and gives the queue's
responses, each on its command's port (R85). -/
theorem execAll_queueRun (hr : HasRing s k c r) (h : execAll (os.map (RingOp.on k)) s = .next t) :
    ∃ r', HasRing t k c r' ∧ r'.content c = (queueRun c os (r.content c)).1 ∧
      t.responses = s.responses ++ portResponses k os (queueRun c os (r.content c)).2 := by
  induction os generalizing s r with
  | nil =>
    obtain rfl : s = t := Host.Outcome.next.inj h
    exact ⟨r, hr, rfl, by simp [portResponses, queueRun]⟩
  | cons o os ih =>
    rw [List.map_cons, execAll_cons_eq_next] at h
    obtain ⟨u, hu, h⟩ := h
    obtain ⟨r₁, v, hop, rfl⟩ := exec_on_of_hasRing hr hu
    obtain ⟨r', hr', hcontent, hrsp⟩ := ih (hasRing_exec hr hop).2 h
    have hq := ringOp_queueStep (hasRing_cap hr) (hasRing_wf hr) hop
    exact ⟨r', hr', by simp [queueRun, hq, hcontent], by simp [queueRun, hq, hrsp]⟩

/-- Every list of commands whose operands fit completes on a sound ring. -/
theorem execAll_ring_completes (hr : HasRing s k c r) (ho : ∀ o ∈ os, o.fits c = true) :
    ∃ t, execAll (os.map (RingOp.on k)) s = .next t := by
  induction os generalizing s r with
  | nil => exact ⟨s, rfl⟩
  | cons o os ih =>
    obtain ⟨ho, hos⟩ := List.forall_mem_cons.1 ho
    obtain ⟨r₁, v, hop⟩ := ringOp_goes_on (hasRing_wf hr) ho
    obtain ⟨hu, hr₁⟩ := hasRing_exec hr hop
    obtain ⟨t, ht⟩ := ih hr₁ hos
    exact ⟨t, execAll_cons_eq_next.2 ⟨_, hu, ht⟩⟩

/-- The responses that a state has gained over one it extends. -/
theorem newResponses_of_append {l : List PortResponse} (h : t.responses = s.responses ++ l) :
    newResponses s t = l := by
  simp [newResponses, h]

/-- The new responses of a completed list of commands are the queue's. -/
theorem newResponses_execAll_rsp (hr : HasRing s k c r)
    (h : execAll (os.map (RingOp.on k)) s = .next t) :
    (newResponses s t).map PortResponse.rsp = (queueRun c os (r.content c)).2 := by
  obtain ⟨-, -, -, hrsp⟩ := execAll_queueRun hr h
  rw [newResponses_of_append hrsp, portResponses_queueRun_map_rsp]

/-! ### The queue keeps the order of its items and loses none -/

theorem acceptedItems_cons (vs : List Response) :
    acceptedItems (o :: os) (v :: vs) = acceptedItems [o] [v] ++ acceptedItems os vs := by
  cases o <;> cases v <;> rfl

theorem poppedItems_cons (vs : List Response) :
    poppedItems (v :: vs) = poppedItems [v] ++ poppedItems vs := by
  cases v <;> rfl

/-- One command keeps the items: what was there and is accepted is what is popped and is still
there, but for `RB.INIT`. -/
theorem queueStep_conserves (ho : o ≠ .init) (q : List Item) :
    q ++ acceptedItems [o] [(queueStep c o q).2] =
      poppedItems [(queueStep c o q).2] ++ (queueStep c o q).1 := by
  cases o with
  | init => exact absurd rfl ho
  | push x => by_cases hq : q.length = c.cap <;> simp [queueStep, acceptedItems, poppedItems, hq]
  | pop => cases q <;> simp [queueStep, acceptedItems, poppedItems]
  | status => simp [queueStep, acceptedItems, poppedItems]

/-- One command, `RB.INIT` too, makes no item and puts none before another. -/
theorem queueStep_sublist (q : List Item) :
    (poppedItems [(queueStep c o q).2] ++ (queueStep c o q).1).Sublist
      (q ++ acceptedItems [o] [(queueStep c o q).2]) := by
  by_cases ho : o = .init
  · subst ho
    exact List.nil_sublist _
  · rw [queueStep_conserves ho]

/-- Without `RB.INIT` the queue loses no item (20_memory.md R51). -/
theorem queueRun_conserves (ho : RingOp.init ∉ os) (q : List Item) :
    q ++ acceptedItems os (queueRun c os q).2 =
      poppedItems (queueRun c os q).2 ++ (queueRun c os q).1 := by
  induction os generalizing q with
  | nil => simp [queueRun, acceptedItems, poppedItems]
  | cons o os ih =>
    obtain ⟨ho, hos⟩ := not_or.1 (mt List.mem_cons.2 ho)
    rw [queueRun, acceptedItems_cons, poppedItems_cons, ← List.append_assoc,
      queueStep_conserves (Ne.symm ho), List.append_assoc, ih hos, List.append_assoc]

/-- What pops return comes in order from what was there and what was accepted (20_memory.md R51). -/
theorem queueRun_sublist (q : List Item) :
    (poppedItems (queueRun c os q).2).Sublist (q ++ acceptedItems os (queueRun c os q).2) := by
  induction os generalizing q with
  | nil => simp [queueRun, poppedItems]
  | cons o os ih =>
    rw [queueRun, acceptedItems_cons, poppedItems_cons, ← List.append_assoc]
    refine ((ih (queueStep c o q).1).append_left _).trans ?_
    rw [← List.append_assoc]
    exact (queueStep_sublist q).append_right _

/-! ### The queue never looks into an item -/

theorem queueStep_mapItem (q : List Item) : queueStep c (o.mapItem f) (q.map f) =
    ((queueStep c o q).1.map f, (queueStep c o q).2.mapItem f) := by
  cases o with
  | init => rfl
  | push x =>
    by_cases hq : q.length = c.cap <;> simp [queueStep, RingOp.mapItem, Response.mapItem, hq]
  | pop => cases q <;> rfl
  | status => simp [queueStep, RingOp.mapItem, Response.mapItem]

theorem queueRun_mapItem (q : List Item) : queueRun c (os.map (RingOp.mapItem f)) (q.map f) =
    ((queueRun c os q).1.map f, (queueRun c os q).2.map (Response.mapItem f)) := by
  induction os generalizing q with
  | nil => rfl
  | cons o os ih => simp [queueRun, queueStep_mapItem, ih]

theorem fits_mapItem (hf : ∀ x < 2 ^ c.elemBits, f x < 2 ^ c.elemBits) (h : o.fits c = true) :
    (o.mapItem f).fits c = true := by
  cases o with
  | init => rfl
  | push x => simpa [RingOp.fits, RingOp.mapItem] using hf x (by simpa [RingOp.fits] using h)
  | pop => rfl
  | status => rfl

/-- The ring with `f` applied to every slot. -/
abbrev RingBuf.mapSlots (f : Item → Item) (r : RingBuf) : RingBuf := { r with buf := r.buf.map f }

theorem mapSlots_wf (hf : ∀ x < 2 ^ c.elemBits, f x < 2 ^ c.elemBits) (hw : RingWf c r) :
    RingWf c (r.mapSlots f) := by
  obtain ⟨⟨hlen, hbits⟩, hreg⟩ := hw
  exact ⟨⟨by simpa using hlen, List.forall_mem_map.2 fun x hx => hf x (hbits x hx)⟩, hreg⟩

theorem content_mapSlots (hc : 0 < c.cap) (hw : RingWf c r) :
    (r.mapSlots f).content c = (r.content c).map f := by
  unfold RingBuf.content
  rw [List.map_map]
  refine List.map_congr_left fun j _ => ?_
  obtain ⟨⟨hlen, -⟩, -⟩ := hw
  have hlt : (r.tail + j) % c.cap < r.buf.length := by rw [hlen]; exact Nat.mod_lt _ hc
  simp [List.getD_eq_getElem?_getD, hlt]

theorem hasRing_mapSlots (hf : ∀ x < 2 ^ c.elemBits, f x < 2 ^ c.elemBits) (hr : HasRing s k c r) :
    HasRing (s.setRing k (r.mapSlots f)) k c (r.mapSlots f) := by
  obtain ⟨hu, ha, hw⟩ := hr
  exact ⟨setRing_get_self s hu _, ha, mapSlots_wf hf hw⟩

end Queue

/-! ### The CRC, one input bit at a time -/

section Crc

variable (a w : Word16)

/-- One bit-serial step: shift `acc`, and apply the polynomial when the bit shifted out differs from
the input bit (20_memory.md R43). -/
def crcBitStep (x : Bool) : Word16 :=
  if (a.getLsbD 0 ^^ x) then (a >>> 1) ^^^ 0x8408#16 else a >>> 1

/-- The shift of a word XORed into `acc` takes the word's low bit as input and leaves the others. -/
theorem crcShift_xor : crcShift (a ^^^ w) = crcBitStep a (w.getLsbD 0) ^^^ (w >>> 1) := by
  unfold crcShift crcBitStep poly
  rw [BitVec.getLsbD_xor, BitVec.ushiftRight_xor_distrib]
  split
  · ac_rfl
  · rfl

theorem crcShifts_succ (n : Nat) : crcShifts (n + 1) a = crcShift (crcShifts n a) := by
  induction n generalizing a with
  | zero => rfl
  | succ n ih => exact ih (crcShift a)

/-- `n` shifts of a word XORed into `acc` are `n` bit-serial steps over its low `n` bits; the bits
above wait. -/
theorem crcShifts_xor (n : Nat) : crcShifts n (a ^^^ w) =
    (List.range n).foldl (fun a j => crcBitStep a (w.getLsbD j)) a ^^^ (w >>> n) := by
  induction n with
  | zero => simp [crcShifts]
  | succ n ih =>
    rw [crcShifts_succ, ih, crcShift_xor, List.range_succ, List.foldl_append]
    simp [BitVec.shiftRight_add]

/-- The low byte on the wire is the high byte of the word that is swapped. -/
theorem swap16_low : (swap16 a).extractLsb' 0 8 = a.extractLsb' 8 8 :=
  BitVec.extractLsb'_append_eq_right

/-- The high byte on the wire is the low byte of the word that is swapped. -/
theorem swap16_high : (swap16 a).extractLsb' 8 8 = a.extractLsb' 0 8 :=
  BitVec.extractLsb'_append_eq_left

end Crc

/-! ### Commands that repeat and commands that commute -/

section Commands

variable {i : Instr} {o : RingOp} {j k : Nat} {r r' : RingBuf} {s t : State}

theorem port_on (k : Nat) (o : RingOp) : (o.on k).port = o.port k := by
  cases o <;> rfl

/-- A completed command answers once, on its port. -/
theorem exec_responds (h : exec i s = .next t) :
    ∃ v, t.responses = s.responses ++ [{ port := i.port, rsp := v }] := by
  rcases exec_next_cases h with ⟨k, o, u, r, v, rfl, -, -, -, rfl⟩ | ⟨hp, rfl⟩
  · exact ⟨v, by rw [port_on]; rfl⟩
  · exact ⟨_, by rw [hp]; rfl⟩

/-- A ring operation that answers the same on the ring it leaves, and leaves that ring, is a command
that repeats: the second answers the same and changes no unit. -/
theorem exec_on_repeats
    (hop : ∀ c r r' v, ringOp o c r = .next (r', v) → ringOp o c r' = .next (r', v))
    (h : exec (o.on k) s = .next t) :
    ∃ u, exec (o.on k) t = .next u ∧ SameUnits t u ∧ newResponses t u = newResponses s t := by
  obtain ⟨u, r, v, hu, ha, hr, rfl⟩ := exec_on_eq_next.1 h
  have hself := setRing_get_self s hu r
  refine ⟨_, exec_on_eq_next.2 ⟨_, r, v, hself, ha, hop _ _ _ _ hr, rfl⟩, ⟨?_, rfl⟩, ?_⟩
  · exact (congrArg State.units (setRing_self ((s.setRing k r).respond _ v) hself)).symm
  · exact (newResponses_respond rfl _ v).trans (newResponses_respond rfl _ v).symm

/-- A CRC command that leaves `acc` alone the second time, and answers the same, repeats. -/
theorem exec_crc_repeats (hp : i.port = .crc) (hacc : ∀ a, crcAcc i (crcAcc i a) = crcAcc i a)
    (hans : ∀ a, crcAnswer i (crcAcc i a) = crcAnswer i a) (h : exec i s = .next t) :
    ∃ u, exec i t = .next u ∧ SameUnits t u ∧ newResponses t u = newResponses s t := by
  rw [exec_crc hp, Host.Outcome.next.injEq] at h
  subst h
  refine ⟨_, exec_crc hp _, ⟨rfl, (hacc s.acc).symm⟩, ?_⟩
  rw [respond_acc, hans]
  exact (newResponses_respond rfl _ _).trans (newResponses_respond rfl _ _).symm

/-- A status leaves all units as they were. -/
theorem exec_rbStatus_sameUnits (h : exec (.rbStatus k) s = .next t) : SameUnits s t := by
  obtain ⟨u, r, v, hu, -, hr, rfl⟩ := (exec_on_eq_next (o := .status)).1 h
  obtain ⟨rfl, -⟩ := ringStatus_eq_next.1 hr
  rw [setRing_self s hu]
  exact ⟨rfl, rfl⟩

/-- `CRC.FINAL` leaves all units as they were. -/
theorem exec_crcFinal_sameUnits (h : exec .crcFinal s = .next t) : SameUnits s t := by
  rw [exec_crc rfl, Host.Outcome.next.injEq] at h
  subst h
  exact ⟨rfl, rfl⟩

/-- Replacing the rings of two units, in either order. -/
theorem setRing_comm (h : j ≠ k) :
    (s.setRing j r).setRing k r' = (s.setRing k r').setRing j r := by
  simp only [State.setRing, State.mk.injEq, and_self, and_true]
  refine List.ext_getElem? fun l => ?_
  simp only [List.getElem?_modify]
  by_cases hl : j = l
  · simp [← hl, h.symm]
  · simp [hl]

/-- Two responses on different ports, in either order, are the same on each port. -/
theorem filter_port_swap (l : List PortResponse) {a b : PortResponse} (h : a.port ≠ b.port)
    (p : Port) : (l ++ [b] ++ [a]).filter (fun v => decide (v.port = p)) =
      (l ++ [a] ++ [b]).filter (fun v => decide (v.port = p)) := by
  by_cases ha : a.port = p
  · have hb : b.port ≠ p := fun hb => h (ha.trans hb.symm)
    simp [ha, hb]
  · simp [List.filter_cons, ha]

/-- The other port of a unit; the CRC unit has only one. -/
def partnerPort : Port → Port
  | .prod k => .cons k
  | .cons k => .prod k
  | .crc => .crc

theorem sameUnit_iff {p q : Port} : p.sameUnit q = true ↔ p = q ∨ p = partnerPort q := by
  cases p <;> cases q <;> simp [Port.sameUnit, partnerPort]

theorem port_ne_of_not_sameUnit {p q : Port} (h : p.sameUnit q = false) : p ≠ q := fun hpq =>
  Bool.eq_false_iff.1 h (sameUnit_iff.2 (.inl hpq))

/-- Ring buffer commands on different units carry different numbers. -/
theorem ne_of_not_sameUnit_on {o' : RingOp} (h : (o.on j).port.sameUnit (o'.on k).port = false) :
    j ≠ k := by
  rintro rfl
  rw [port_on, port_on] at h
  cases o <;> cases o' <;> simp [RingOp.port, Port.sameUnit] at h

theorem execAll_pair {i' : Instr} :
    execAll [i, i'] s = .next t ↔ ∃ u, exec i s = .next u ∧ exec i' u = .next t := by
  simp only [execAll_cons_eq_next]
  simp [execAll]

/-- Two commands on different units complete in either order, with the same units and fault log and,
on each port, the same responses (20_memory.md R59). -/
theorem exec_commutes {i' : Instr} (hu : i.port.sameUnit i'.port = false)
    (h : execAll [i, i'] s = .next t) :
    ∃ t', execAll [i', i] s = .next t' ∧ SameUnits t t' ∧ t'.faultLog = t.faultLog ∧
      ∀ p, t'.responses.filter (fun v => decide (v.port = p)) =
        t.responses.filter (fun v => decide (v.port = p)) := by
  obtain ⟨s₁, h₁, h₂⟩ := execAll_pair.1 h
  have hp := port_ne_of_not_sameUnit hu
  rcases exec_next_cases h₁ with ⟨k, o, u, r, v, rfl, hk, ha, hr, rfl⟩ | ⟨hi, rfl⟩ <;>
    rcases exec_next_cases h₂ with ⟨l, o', u', r', v', rfl, hl, ha', hr', rfl⟩ | ⟨hi', rfl⟩
  · have hkl : k ≠ l := ne_of_not_sameUnit_on hu
    rw [port_on, port_on] at hp
    rw [respond_units, setRing_get_ne s hkl.symm] at hl
    have hk' := (setRing_get_ne s hkl r').trans hk
    refine ⟨_, execAll_pair.2 ⟨_, exec_on_eq_next.2 ⟨u', r', v', hl, ha', hr', rfl⟩,
      exec_on_eq_next.2 ⟨u, r, v, hk', ha, hr, rfl⟩⟩, ⟨?_, rfl⟩, rfl, filter_port_swap _ hp⟩
    have hcomm := setRing_comm (s := s) (r := r) (r' := r') hkl
    exact (congrArg State.units hcomm :)
  · rw [port_on, hi'] at hp
    exact ⟨_, execAll_pair.2 ⟨_, exec_crc hi' s, exec_on_eq_next.2 ⟨u, r, v, hk, ha, hr, rfl⟩⟩,
      ⟨rfl, rfl⟩, rfl, filter_port_swap _ hp⟩
  · rw [port_on, hi] at hp
    exact ⟨_, execAll_pair.2 ⟨_, exec_on_eq_next.2 ⟨u', r', v', hl, ha', hr', rfl⟩, exec_crc hi _⟩,
      ⟨rfl, rfl⟩, rfl, filter_port_swap _ hp⟩
  · exact absurd (hi.trans hi'.symm) hp

end Commands

/-! ### A sound block completes every command -/

section Completion

variable {cs : Config} {i : Instr} {q : Request} {k : Nat} {s t : State}

/-- A ring of an accepted configuration is accepted. -/
theorem accepted_of_mem {c : RingConfig} (h : cs.accepted = true) (hc : c ∈ cs) :
    c.accepted = true := by
  rw [Config.accepted, Bool.and_eq_true, List.all_eq_true] at h
  exact h.2 c hc

/-- Every ring buffer of a sound block is an accepted one with a sound ring. -/
theorem hasRing_of_inv (h : Inv s) {u : RingUnit} (hu : s.units[k]? = some u) :
    HasRing s k u.cfg u.ring := by
  obtain ⟨hc, hwf, -⟩ := h
  have hmem := List.mem_of_getElem? hu
  exact ⟨hu, accepted_of_mem hc (List.mem_map_of_mem hmem), hwf u hmem⟩

theorem hasPort_of_fits {x : Item} (h : cs.fits k x = true) : cs.hasPort (.prod k) = true := by
  unfold Config.fits at h
  split at h
  · rename_i c hc
    simpa [Config.hasPort] using (List.getElem?_eq_some_iff.1 hc).1
  · cases h

/-- The unit that a well-formed ring buffer command addresses exists, and its operand fits. -/
theorem unit_of_wellFormed_on {o : RingOp} (h : (o.on k).wellFormed s.config = true) :
    ∃ u, s.units[k]? = some u ∧ o.fits u.cfg = true := by
  have hk : k < s.units.length := by
    cases o with
    | push x => simpa [Config.hasPort, State.config] using hasPort_of_fits h
    | init | pop | status =>
      simpa [RingOp.on, Instr.wellFormed, Config.hasPort, State.config] using h
  refine ⟨s.units[k], List.getElem?_eq_getElem hk, ?_⟩
  cases o with
  | push x =>
    simpa [RingOp.on, RingOp.fits, Instr.wellFormed, Config.fits, State.config, hk] using h
  | init | pop | status => rfl

/-- Every command that can be issued to a sound block completes (20_memory.md R53). -/
theorem exec_completes (h : Inv s) (hi : i.wellFormed s.config = true) :
    ∃ t, exec i s = .next t := by
  rcases instr_cases i with ⟨k, o, rfl⟩ | hp
  · obtain ⟨u, hu, ho⟩ := unit_of_wellFormed_on hi
    have hr := hasRing_of_inv h hu
    obtain ⟨r', v, hop⟩ := ringOp_goes_on (hasRing_wf hr) ho
    exact ⟨_, (hasRing_exec hr hop).1⟩
  · exact ⟨_, exec_crc hp s⟩

/-- The command of a request stands on the request's port, and can be issued where the request can
stand on its port. -/
theorem decode_ok_spec (h : decode q = .ok i) :
    i.port = q.port ∧ ∀ cs, q.wellFormed cs = true → i.wellFormed cs = true := by
  unfold decode at h
  split at h
  · cases h
  all_goals
    cases q <;> cases h
    exact ⟨rfl, fun _ h => h⟩

theorem hasPort_of_wellFormed (h : q.wellFormed cs = true) : cs.hasPort q.port = true := by
  cases q with
  | prod k cmd x => exact hasPort_of_fits h
  | cons k cmd => exact h
  | crc cmd b => rfl

/-- A sound block serves every request that can stand on its port. -/
theorem serve_completes (h : Inv s) (hq : q.wellFormed s.config = true) :
    ∃ t, serve q s = .next t := by
  have hp := hasPort_of_wellFormed hq
  cases hd : decode q with
  | error c => exact ⟨_, serve_error hp hd⟩
  | ok i =>
    rw [serve_ok hp hd]
    exact exec_completes h ((decode_ok_spec hd).2 _ hq)

/-- A served request is answered once, on its port. -/
theorem serve_responds (h : serve q s = .next t) :
    ∃ v, t.responses = s.responses ++ [{ port := q.port, rsp := v }] := by
  obtain ⟨-, ⟨i, hd, hi⟩ | ⟨c, -, rfl⟩⟩ := serve_eq_next.1 h
  · rw [← (decode_ok_spec hd).1]
    exact exec_responds hi
  · exact ⟨_, raise_responses ..⟩

/-- A refused configuration has no step. -/
theorem step_refused (h : s.config.accepted = false) : step s = .refused .configuration := by
  simp [step, h]

end Completion

/-! ### The order in which a sound block takes commands -/

section Order

variable {q : Request} {rest : List Request} {s : State}

/-- The first held command is taken and served, and what is held behind it keeps its order, before
what arrives. -/
theorem step_takes_first (h : Inv s) (hq : s.held = q :: rest) :
    ∃ t new, step s = .next t ∧ Inv t ∧ t.held = rest ++ new := by
  obtain ⟨new, hnew⟩ := present_held s
  rw [hq, List.cons_append] at hnew
  have hp := present_inv h
  have ⟨_, _, hwf, _⟩ := hp
  have hqwf := hwf q (by simp [State.outstanding, hnew])
  obtain ⟨t, ht⟩ := serve_completes (takeHeld_inv hp hnew) hqwf
  have hstep := step_eq_next.2 ⟨h.1, .inr ⟨q, _, hnew, ht⟩⟩
  obtain ⟨-, hheld, -⟩ := serve_frame ht
  exact ⟨t, new, hstep, step_inv h hstep, hheld⟩

/-- After as many steps as commands are held before it, a command is the one taken next. -/
theorem run_reaches_held (before : List Request) {after : List Request} (h : Inv s)
    (hs : s.held = before ++ q :: after) :
    ∃ t later, Host.Core.run Sys2Proof.core before.length s = .next t ∧
      t.held = q :: (after ++ later) := by
  induction before generalizing s after with
  | nil => exact ⟨s, [], rfl, by simpa using hs⟩
  | cons b before ih =>
    obtain ⟨u, new, hstep, hu, hheld⟩ := step_takes_first (rest := before ++ q :: after) h hs
    rw [List.append_assoc, List.cons_append] at hheld
    obtain ⟨t, later, hrun, ht⟩ := ih hu hheld
    refine ⟨t, new ++ later, ?_, by rw [ht, List.append_assoc]⟩
    have hcore : Sys2Proof.core.step s = .next u := hstep
    simp only [List.length_cons, Host.Core.run, hcore, hrun]

/-- Of the commands of one unit, where each port holds at most one, at most one is held before
another. -/
theorem sameUnit_before_le_one {before after : List Request}
    (h : ((before ++ q :: after).map Request.port).Nodup) :
    (before.filter (fun p => p.port.sameUnit q.port)).length ≤ 1 := by
  rw [List.map_append, List.map_cons, List.nodup_append] at h
  obtain ⟨hn, -, hdisj⟩ := h
  have hall : ∀ p ∈ (before.filter (fun p => p.port.sameUnit q.port)).map Request.port,
      p = partnerPort q.port := by
    refine List.forall_mem_map.2 fun p hp => ?_
    obtain ⟨hmem, hsame⟩ := List.mem_filter.1 hp
    exact (sameUnit_iff.1 hsame).resolve_left
      (hdisj _ (List.mem_map_of_mem hmem) _ List.mem_cons_self)
  have hsub := hn.sublist
    ((List.filter_sublist (p := fun p => p.port.sameUnit q.port)).map Request.port)
  rw [List.eq_replicate_of_mem hall, List.nodup_replicate, List.length_map] at hsub
  exact hsub

/-- Presenting that leaves no command held changes nothing: a first arrival would have found its port
free. -/
theorem present_outstanding_of_idle (h : (present s).held = []) :
    (present s).outstanding = s.outstanding := by
  obtain ⟨units, acc, log, responses, held, arrivals⟩ := s
  cases arrivals with
  | nil => rfl
  | cons now later =>
    cases now with
    | nil => simp [present, presentAll, State.outstanding]
    | cons a now =>
      exfalso
      obtain ⟨new, hnew⟩ := presentAll_fst (a :: now) held
      obtain rfl : held = [] := (List.append_eq_nil_iff.1 (hnew.symm.trans h)).1
      obtain ⟨new, hnew⟩ := presentAll_fst now [a]
      rw [← List.nil_append [a], ← presentAll_cons_free (by simp)] at hnew
      exact List.cons_ne_nil _ _ (hnew.symm.trans h)

/-- A step that serves a request keeps all the others, those of each port in order. -/
theorem serve_keeps_outstanding {t : State} (hq : (present s).held = q :: rest)
    (h : serve q { present s with held := rest } = .next t) :
    (present s).outstanding = q :: t.outstanding := by
  obtain ⟨-, hheld, harr⟩ := serve_frame h
  simp [State.outstanding, hq, hheld, harr]

end Order

end Sys2Proof.Machine

/-! ### The statements -/

open Sys2Proof Sys2Proof.Machine

/-- Settles O25: the ring runs as the bounded queue, which keeps its items in order. -/
theorem itemsComeOutInPushOrder : Obligations.ItemsComeOutInPushOrder := by
  unfold Obligations.ItemsComeOutInPushOrder
  intro s t k c r r' os vs hr h ht hvs
  obtain ⟨r₁, ⟨hr₁, -⟩, hcontent, -⟩ := execAll_queueRun hr h
  cases hr₁.symm.trans ht
  rw [newResponses_execAll_rsp hr h] at hvs
  subst hvs
  rw [hcontent]
  exact ⟨queueRun_sublist _, fun ho => queueRun_conserves ho _⟩

/-- Settles O26: slots are written and read whole, and the bounded queue commutes with every change of
the items. -/
theorem elementsAreOpaque : Obligations.ElementsAreOpaque := by
  unfold Obligations.ElementsAreOpaque
  refine ⟨?_, ?_, ?_⟩
  · intro s k c r x hr he hx
    have hos : ∀ o ∈ [RingOp.push x, .pop], o.fits c = true := by simp [RingOp.fits, hx]
    obtain ⟨t, ht⟩ := execAll_ring_completes hr hos
    obtain ⟨-, -, -, hrsp⟩ := execAll_queueRun hr ht
    have hcap : ¬ 0 = c.cap := (hasRing_cap hr).ne
    rw [(content_eq_nil (hasRing_cap hr) (hasRing_wf hr)).2 he] at hrsp
    exact ⟨t, ht, by simpa [queueRun, queueStep, hcap, portResponses, RingOp.port] using hrsp⟩
  · intro s t k c r r' x hr ht
    refine ⟨fun h hf => ?_, fun h hnew => ?_⟩
    · obtain ⟨r₁, v, hop, rfl⟩ := exec_on_of_hasRing (o := .push x) hr h
      cases (setRing_get_self s hr.1 r₁).symm.trans ht
      obtain ⟨-, ⟨hfull, -⟩ | ⟨-, hlt, rfl, -⟩⟩ := ringPush_eq_next.1 hop
      · simp [hf] at hfull
      · exact List.getElem?_set_self hlt
    · obtain ⟨-, -, hv⟩ | ⟨-, y, hy, -, hv⟩ :=
        ringPop_eq_next.1 (ringOp_of_exec_on (o := .pop) hr h ht hnew)
      · cases hv
      · cases hv
        exact hy
  · intro s k c r f os hr hos hf
    have hr' := hasRing_mapSlots hf hr
    obtain ⟨t, ht⟩ := execAll_ring_completes hr hos
    obtain ⟨t', ht'⟩ := execAll_ring_completes hr'
      (List.forall_mem_map.2 fun o ho => fits_mapItem hf (hos o ho))
    refine ⟨t, t', ht, ht', ?_⟩
    refine (newResponses_execAll_rsp hr' ht').trans ?_
    rw [content_mapSlots (hasRing_cap hr) (hasRing_wf hr),
      queueRun_mapItem, ← newResponses_execAll_rsp hr ht, List.map_map]
    rfl

/-- Settles O37: a byte XORed into `acc` is taken one bit at a time, and no bit is left after eight. -/
theorem crcTakesBitsLowFirst : Obligations.CrcTakesBitsLowFirst := by
  unfold Obligations.CrcTakesBitsLowFirst
  intro a b
  have hnone : b.setWidth 16 >>> 8 = 0#16 := by bv_omega
  rw [crcStep, crcShifts_xor, hnone, BitVec.xor_zero]
  refine List.foldl_ext _ _ _ fun a j hj => ?_
  have hlt : j < 16 := (List.mem_range.1 hj).trans (by decide)
  simp [crcBitStep, hlt]

/-- Settles O45: the addressed unit is a sound ring, on which every ring operation goes on. -/
theorem everyCommandCompletes : Obligations.EveryCommandCompletes := by
  unfold Obligations.EveryCommandCompletes
  exact fun s i h hi => exec_completes h hi

/-- Settles O51: each command replaces its own ring or `acc` and reads nothing else. -/
theorem commandsOnDifferentUnitsCommute : Obligations.CommandsOnDifferentUnitsCommute := by
  unfold Obligations.CommandsOnDifferentUnitsCommute
  exact fun i j s t hu h => exec_commutes hu h

/-- Settles O52, command by command. -/
theorem idempotentCommands : Obligations.IdempotentCommands := by
  unfold Obligations.IdempotentCommands
  intro i s t k hi h
  simp only [List.mem_cons, List.not_mem_nil, or_false] at hi
  rcases hi with rfl | rfl | rfl | rfl
  · refine ⟨exec_on_repeats (o := .init) (fun c r r' v hr => ?_) h, by simp⟩
    obtain ⟨rfl, rfl⟩ := (ringInit_eq_next (c := c)).1 hr
    rfl
  · exact ⟨exec_crc_repeats rfl (fun _ => rfl) (fun _ => rfl) h, by simp⟩
  · refine ⟨exec_on_repeats (o := .status) (fun c r r' v hr => ?_) h,
      fun _ => exec_rbStatus_sameUnits h⟩
    obtain ⟨rfl, rfl⟩ := ringStatus_eq_next.1 hr
    rfl
  · exact ⟨exec_crc_repeats rfl (fun _ => rfl) (fun _ => rfl) h,
      fun _ => exec_crcFinal_sameUnits h⟩

/-- Settles O55: a unit has two ports, each holding one command at most, and every step takes the first
held command. -/
theorem waitingCommandIsServedInTurn : Obligations.WaitingCommandIsServedInTurn := by
  unfold Obligations.WaitingCommandIsServedInTurn
  intro s before after r h hs
  have ⟨_, _, _, hn⟩ := h
  rw [hs] at hn
  exact ⟨sameUnit_before_le_one hn, run_reaches_held before h hs⟩

/-- Settles O56: presenting keeps every command, and serving takes and answers one. -/
theorem commandsAreNeverLost : Obligations.CommandsAreNeverLost := by
  unfold Obligations.CommandsAreNeverLost
  intro s t h
  obtain ⟨-, ⟨hidle, rfl⟩ | ⟨r, rest, hr, hs⟩⟩ := step_eq_next.1 h
  · exact .inr ⟨hidle, present_outstanding_of_idle hidle, present_responses s,
      ⟨(present_units s).symm, (present_acc s).symm⟩, present_faultLog s⟩
  · obtain ⟨v, hv⟩ := serve_responds hs
    have hkeep := serve_keeps_outstanding hr hs
    refine .inl ⟨r, v, ?_, fun p => ?_, by simpa using hv⟩
    · exact hkeep ▸ (present_outstanding_perm s).symm
    · exact hkeep ▸ (present_outstanding_onPort s p).symm

/-- Settles O43: the byte swap and the little-endian order cancel. -/
theorem checksumOnTheWire : Obligations.ChecksumOnTheWire := by
  unfold Obligations.ChecksumOnTheWire
  exact fun a => ⟨rfl, by rw [littleEndian16, crcFinal, swap16_low, swap16_high]⟩

/-- Settles O57: one ring buffer that is not accepted, or none at all, and no step is taken. -/
theorem unacceptedConfigurationIsRefused : Obligations.UnacceptedConfigurationIsRefused := by
  unfold Obligations.UnacceptedConfigurationIsRefused
  refine ⟨fun s u hu hbad => step_refused (Bool.eq_false_iff.2 fun h => ?_),
    fun s hs => step_refused (by simp [State.config, hs, Config.accepted])⟩
  have hc := accepted_of_mem h (List.mem_map_of_mem hu)
  simp only [RingConfig.accepted, Bool.and_eq_true, decide_eq_true_eq] at hc
  omega

end

section
/-! PROOFS of the encoding family (30_encoding.md): which request issues which command and which words
are illegal; the form of every response; the pseudo-commands CRC16 and RB.DRAIN; and what a line of
assembly gives. -/

namespace Sys2Proof

/-! ### Requests and the commands they issue -/

section Decode

variable {i : Instr} {k : Nat} {q : Request} {x : Item} {w : Byte}

@[simp] theorem decode_rbInit : decode (.cons k 0x00#8) = .ok (.rbInit k) := by
  simp [decode, Request.cmd]

@[simp] theorem decode_rbPush : decode (.prod k 0x01#8 x) = .ok (.rbPush k x) := by
  simp [decode, Request.cmd]

@[simp] theorem decode_rbPop : decode (.cons k 0x02#8) = .ok (.rbPop k) := by
  simp [decode, Request.cmd]

@[simp] theorem decode_rbStatus : decode (.cons k 0x03#8) = .ok (.rbStatus k) := by
  simp [decode, Request.cmd]

@[simp] theorem decode_crcInit : decode (.crc 0x40#8 w) = .ok .crcInit := by
  simp [decode, Request.cmd]

@[simp] theorem decode_crcUpdate : decode (.crc 0x41#8 w) = .ok (.crcUpdate w) := by
  simp [decode, Request.cmd]

@[simp] theorem decode_crcFinal : decode (.crc 0x42#8 w) = .ok .crcFinal := by
  simp [decode, Request.cmd]

/-- A command is decoded from its own word only (30_encoding.md R62). -/
theorem decode_ok_cmd (h : decode q = .ok i) : q.cmd = i.word := by
  unfold decode at h
  split at h
  · cases h
  all_goals
    rename_i hm
    cases q <;> cases h
    exact mnemonicOf_eq_ok.1 hm

theorem eq_prod_of_port (h : q.port = .prod k) : ∃ x, q = .prod k q.cmd x := by
  cases q <;> cases h
  exact ⟨_, rfl⟩

theorem eq_cons_of_port (h : q.port = .cons k) : q = .cons k q.cmd := by
  cases q <;> cases h
  rfl

theorem eq_crc_of_port (h : q.port = .crc) : ∃ b, q = .crc q.cmd b := by
  cases q <;> cases h
  exact ⟨_, rfl⟩

/-- The request stands on the command's port, with its word and, where the command takes one, its
operand (30_encoding.md R62, R64). -/
abbrev Issues (q : Request) (i : Instr) : Prop :=
  q.port = i.port ∧ q.cmd = i.word ∧
    (∀ k x, i = .rbPush k x → q = .prod k i.word x) ∧ (∀ b, i = .crcUpdate b → q = .crc i.word b)

/-- A request that issues a command decodes to it. -/
theorem decode_of_issues (h : Issues q i) : decode q = .ok i := by
  obtain ⟨hp, hw, hpush, hupdate⟩ := h
  cases i with
  | rbPush k x => rw [hpush k x rfl]; exact decode_rbPush
  | crcUpdate b => rw [hupdate b rfl]; exact decode_crcUpdate
  | rbInit k => rw [eq_cons_of_port hp, hw]; exact decode_rbInit
  | rbPop k => rw [eq_cons_of_port hp, hw]; exact decode_rbPop
  | rbStatus k => rw [eq_cons_of_port hp, hw]; exact decode_rbStatus
  | crcInit => obtain ⟨b, hq⟩ := eq_crc_of_port hp; rw [hq, hw]; exact decode_crcInit
  | crcFinal => obtain ⟨b, hq⟩ := eq_crc_of_port hp; rw [hq, hw]; exact decode_crcFinal

/-- A request that decodes to a command issues it: on that port and with that word no other operand
decodes to the command. -/
theorem issues_of_decode (h : decode q = .ok i) : Issues q i := by
  have hp : q.port = i.port := (Machine.decode_ok_spec h).1.symm
  have hw := decode_ok_cmd h
  refine ⟨hp, hw, ?_, ?_⟩
  · rintro k x rfl
    obtain ⟨y, hq⟩ := eq_prod_of_port hp
    rw [hw] at hq
    rw [hq, word_rbPush, decode_rbPush] at h
    cases h
    exact hq
  · rintro b rfl
    obtain ⟨y, hq⟩ := eq_crc_of_port hp
    rw [hw] at hq
    rw [hq, word_crcUpdate, decode_crcUpdate] at h
    cases h
    exact hq

theorem decode_eq_ok_iff : decode q = .ok i ↔ Issues q i := ⟨issues_of_decode, decode_of_issues⟩

theorem encode_port : (encode i).port = i.port := by cases i <;> rfl

/-- The encoding of a command decodes to it. -/
@[simp] theorem decode_encode : decode (encode i) = .ok i := by
  cases i <;> simp [encode]

/-- The encoding of a well-formed command can stand on its port. -/
theorem encode_wellFormed {cs : Config} (h : i.wellFormed cs = true) :
    (encode i).wellFormed cs = true := by
  cases i <;> exact h

/-! ### Illegal words -/

/-- A request is refused as illegal for its word alone, whatever its port (30_encoding.md R69). -/
theorem decode_illegal_iff :
    decode q = .error .illegalCommand ↔ mnemonicOf q.cmd = .error .illegalCommand := by
  unfold decode
  split
  · rename_i e he
    rw [he, Except.error.injEq, Except.error.injEq]
  all_goals
    rename_i hm
    cases q <;> simp [hm]

/-- The words without a mnemonic, by their bits (30_encoding.md R67): a check of all 256. -/
theorem mnemonicOf_illegal_iff : mnemonicOf w = .error .illegalCommand ↔
    (w &&& 0x3C#8 ≠ 0x00#8 ∨ w >>> 6 = 0x02#8 ∨ w >>> 6 = 0x03#8 ∨ w = 0x43#8) := by
  have h : ∀ n : Fin 256, mnemonicOf (BitVec.ofFin n) = .error .illegalCommand ↔
      (BitVec.ofFin n &&& 0x3C#8 ≠ 0x00#8 ∨ BitVec.ofFin n >>> 6 = 0x02#8 ∨
        BitVec.ofFin n >>> 6 = 0x03#8 ∨ BitVec.ofFin n = 0x43#8) := by
    decide +kernel
  exact h w.toFin

end Decode

end Sys2Proof

namespace Sys2Proof.Machine

/-! ### Serving a request: what runs and what is answered -/

section Serve

variable {i : Instr} {q : Request} {rest : List Request} {k : Nat} {s t : State}

/-- A step with a command held serves the first. -/
theorem step_of_held (ha : s.config.accepted = true) (hq : (present s).held = q :: rest) :
    step s = serve q { present s with held := rest } := by
  simp [step, ha, serveFirst, hq]

/-- Where its port exists, the encoding of a command runs the command. -/
theorem serve_encode (hp : s.config.hasPort i.port = true) : serve (encode i) s = exec i s :=
  serve_ok (by rwa [encode_port]) decode_encode

/-- The forms of response that the table of 30_encoding.md R65 gives a command. -/
def Answers : Instr → Response → Prop
  | .rbInit _, v => v = .ack
  | .rbPush _ _, v => v = .ack ∨ v = .noItem
  | .rbPop _, v => v = .noItem ∨ ∃ x, v = .item x
  | .rbStatus _, v => ∃ w, v = .status w
  | .crcInit, v => v = .ack
  | .crcUpdate _, v => v = .ack
  | .crcFinal, v => ∃ w, v = .crc w

/-- A ring operation answers in its command's form. -/
theorem ringOp_answers {o : RingOp} {c : RingConfig} {r r' : RingBuf} {v : Response}
    (h : ringOp o c r = .next (r', v)) : Answers (o.on k) v := by
  cases o with
  | init => exact ((ringInit_eq_next (c := c)).1 h).2
  | push x =>
    obtain ⟨-, ⟨-, -, hv⟩ | ⟨-, -, -, hv⟩⟩ := ringPush_eq_next.1 h
    · exact .inr hv
    · exact .inl hv
  | pop =>
    obtain ⟨-, -, hv⟩ | ⟨-, y, -, -, hv⟩ := ringPop_eq_next.1 h
    · exact .inl hv
    · exact .inr ⟨y, hv⟩
  | status => exact ⟨_, (ringStatus_eq_next.1 h).2⟩

/-- A CRC command answers in its form. -/
theorem crcAnswer_answers (h : i.port = .crc) (a : Word16) : Answers i (crcAnswer i a) := by
  cases i with
  | crcInit => rfl
  | crcUpdate b => rfl
  | crcFinal => exact ⟨_, rfl⟩
  | rbInit k | rbPush k x | rbPop k | rbStatus k => cases h

/-- A completed command answers once, on its port and in its form. -/
theorem exec_answers (h : exec i s = .next t) :
    ∃ v, t.responses = s.responses ++ [{ port := i.port, rsp := v }] ∧ Answers i v := by
  rcases exec_next_cases h with ⟨k, o, u, r, v, rfl, -, -, hr, rfl⟩ | ⟨hp, rfl⟩
  · exact ⟨v, by rw [port_on]; rfl, ringOp_answers hr⟩
  · exact ⟨_, by rw [hp]; rfl, crcAnswer_answers hp s.acc⟩

/-- A served request is answered once, on its port: with its fault, or in the form of its command. -/
theorem serve_answers (h : serve q s = .next t) :
    ∃ v, t.responses = s.responses ++ [{ port := q.port, rsp := v }] ∧
      (∀ c, decode q = .error c → v = .fault c) ∧ ∀ i, decode q = .ok i → Answers i v := by
  obtain ⟨-, ⟨i, hd, hi⟩ | ⟨c, hd, rfl⟩⟩ := serve_eq_next.1 h
  · obtain ⟨v, hv, hform⟩ := exec_answers hi
    rw [(decode_ok_spec hd).1] at hv
    exact ⟨v, hv, by simp [hd], by simpa [hd] using hform⟩
  · exact ⟨.fault c, raise_responses .., by simp [hd], by simp [hd]⟩

/-- Kind 0b11 is never produced (30_encoding.md R65). -/
theorem kind_ne_three (v : Response) : v.kind ≠ 0b11#2 := by
  cases v <;> simp [Response.kind]

/-- A push whose operand needs more than `ELEM_BITS` bits has no meaning. -/
theorem ringPush_tooWide {c : RingConfig} {r : RingBuf} {x : Item} (h : 2 ^ c.elemBits ≤ x) :
    ringPush x c r = .refused .operandTooWide := by
  simp [ringPush, pushOperand, Nat.not_lt.2 h]

end Serve

/-! ### The pseudo-command CRC16 -/

/-- One `CRC.UPDATE` per byte folds the bytes into `acc`, each answered ACK. -/
theorem execAll_updates (ds : List Byte) (s : State) :
    ∃ t, execAll (ds.map Instr.crcUpdate) s = .next t ∧ t.acc = ds.foldl crcStep s.acc ∧
      t.responses = s.responses ++ List.replicate ds.length { port := .crc, rsp := .ack } := by
  induction ds generalizing s with
  | nil => exact ⟨s, rfl, rfl, by simp⟩
  | cons b ds ih =>
    obtain ⟨t, ht, hacc, hrsp⟩ := ih (State.respond { s with acc := crcStep s.acc b } .crc .ack)
    exact ⟨t, execAll_cons_eq_next.2 ⟨_, exec_crc rfl s, ht⟩, hacc,
      by simp [hrsp, List.replicate_succ]⟩

/-- The commands of `CRC16` complete, and answer ACK to all but the last, which returns the fold of the
bytes from 0xFFFF (30_encoding.md R71). -/
theorem execAll_crc16Commands (ds : List Byte) (s : State) :
    ∃ t, execAll (crc16Commands ds) s = .next t ∧ t.responses = s.responses ++
      (List.replicate (ds.length + 1) { port := .crc, rsp := .ack } ++
        [{ port := .crc, rsp := .crc (crc16 ds) }]) := by
  obtain ⟨t, ht, hacc, hrsp⟩ :=
    execAll_updates ds (State.respond { s with acc := crcStart } .crc .ack)
  refine ⟨_, execAll_cons_eq_next.2 ⟨_, exec_crc rfl s, execAll_append_eq_next.2
    ⟨t, ht, execAll_cons_eq_next.2 ⟨_, exec_crc rfl t, rfl⟩⟩⟩, ?_⟩
  rw [respond_acc] at hacc
  simp [hrsp, hacc, crcAnswer, crc16, List.replicate_succ]

/-! ### The pseudo-command RB.DRAIN -/

section Drain

variable {c : RingConfig} {i : Instr} {is : List Instr} {k : Nat} {o : RingOp} {r : RingBuf}
  {s t : State} {x : Item} {xs ys : List Item}

/-- On a sound ring a command whose operand fits does to the content, and answers, what the bounded
queue does. -/
theorem hasRing_exec_queueStep (hr : HasRing s k c r) (ho : o.fits c = true) :
    ∃ t r', exec (o.on k) s = .next t ∧ HasRing t k c r' ∧
      r'.content c = (queueStep c o (r.content c)).1 ∧
      t.responses = s.responses ++ [{ port := o.port k, rsp := (queueStep c o (r.content c)).2 }] := by
  obtain ⟨r', v, hop⟩ := ringOp_goes_on (hasRing_wf hr) ho
  obtain ⟨ht, hr'⟩ := hasRing_exec hr hop
  have hq := ringOp_queueStep (hasRing_cap hr) (hasRing_wf hr) hop
  exact ⟨_, r', ht, hr', by rw [hq], by rw [hq]; rfl⟩

/-- A pop on content `x :: xs` answers `x` and leaves `xs`. -/
theorem hasRing_pop (hr : HasRing s k c r) (hx : r.content c = x :: xs) :
    ∃ t r', exec (.rbPop k) s = .next t ∧ HasRing t k c r' ∧ r'.content c = xs ∧
      t.responses = s.responses ++ [{ port := .cons k, rsp := .item x }] := by
  have h := hasRing_exec_queueStep (o := .pop) hr rfl
  rwa [hx] at h

/-- A push of 0, which every width holds, is accepted where there is room. -/
theorem hasRing_push_zero (hr : HasRing s k c r) (hroom : (r.content c).length < c.cap) :
    ∃ t r', exec (.rbPush k 0) s = .next t ∧ HasRing t k c r' ∧ r'.content c = r.content c ++ [0] := by
  obtain ⟨t, r', ht, hr', hcontent, -⟩ :=
    hasRing_exec_queueStep (o := .push 0) hr (by simp [RingOp.fits])
  rw [queueStep, if_neg (Nat.ne_of_lt hroom)] at hcontent
  exact ⟨t, r', ht, hr', hcontent⟩

/-- What a pop leaves has room for one item more. -/
theorem length_lt_cap_of_cons (hr : HasRing s k c r) (hx : r.content c = x :: xs) :
    xs.length < c.cap := by
  have h := count_le (hasRing_wf hr)
  rw [← length_content, hx] at h
  exact h

/-- Every completed command leaves a sound ring sound, whatever unit it is of. -/
theorem exec_keeps_hasRing (hr : HasRing s k c r) (h : exec i s = .next t) :
    ∃ r', HasRing t k c r' := by
  rcases exec_next_cases h with ⟨j, o, u, r₁, v, rfl, -, -, -, rfl⟩ | ⟨-, rfl⟩
  · by_cases hj : k = j
    · subst hj
      obtain ⟨r', v', hop, ht⟩ := exec_on_of_hasRing hr h
      exact ⟨r', ht ▸ (hasRing_exec hr hop).2⟩
    · obtain ⟨hu, hcw⟩ := hr
      exact ⟨r, (setRing_get_ne s hj r₁).trans hu, hcw⟩
  · exact ⟨r, hr⟩

theorem execAll_keeps_hasRing (hr : HasRing s k c r) (h : execAll is s = .next t) :
    ∃ r', HasRing t k c r' := by
  induction is generalizing s r with
  | nil =>
    obtain rfl : s = t := Host.Outcome.next.inj h
    exact ⟨r, hr⟩
  | cons i is ih =>
    obtain ⟨u, hu, h⟩ := execAll_cons_eq_next.1 h
    obtain ⟨r', hr'⟩ := exec_keeps_hasRing hr hu
    exact ih hr' h

theorem drainSoFar_keeps_hasRing (hd : DrainSoFar k s xs t) (hr : HasRing s k c r) :
    ∃ r', HasRing t k c r' := by
  induction hd with
  | start => exact ⟨r, hr⟩
  | pop t u v xs x others before popped answered notConsumer meanwhile ih =>
    obtain ⟨r₁, hr₁⟩ := ih
    obtain ⟨r₂, hr₂⟩ := exec_keeps_hasRing hr₁ popped
    exact execAll_keeps_hasRing hr₂ meanwhile

/-- A pop answered NONE found the buffer empty, and changed no unit. -/
theorem exec_rbPop_none (hr : HasRing s k c r) (h : exec (.rbPop k) s = .next t)
    (hnone : t.responses = s.responses ++ [{ port := .cons k, rsp := .noItem }]) :
    r.content c = [] ∧ t.units = s.units := by
  obtain ⟨r', v, hop, rfl⟩ := exec_on_of_hasRing (o := .pop) hr h
  obtain rfl : v = .noItem := by simpa [RingOp.port] using hnone
  obtain ⟨he, rfl, -⟩ | ⟨-, y, -, -, hv⟩ := ringPop_eq_next.1 hop
  · exact ⟨(content_eq_nil (hasRing_cap hr) (hasRing_wf hr)).2 he,
      (congrArg State.units (hasRing_setRing_self hr) :)⟩
  · cases hv

/-- A drain goes on, with nothing in between, until it has returned the whole content. -/
theorem drainSoFar_to_empty (hd : DrainSoFar k s xs t) (hr : HasRing t k c r)
    (hys : r.content c = ys) :
    ∃ u r', DrainSoFar k s (xs ++ ys) u ∧ HasRing u k c r' ∧ r'.content c = [] := by
  induction ys generalizing xs t r with
  | nil => exact ⟨t, r, by simpa using hd, hr, hys⟩
  | cons y ys ih =>
    obtain ⟨u, r', hu, hr', hcontent, hrsp⟩ := hasRing_pop hr hys
    have hd' := DrainSoFar.pop s t u u xs y [] hd hu hrsp (by simp) rfl
    simpa using ih hd' hr' hcontent

/-- From every sound buffer a drain ends with the buffer's content. -/
theorem drains_content (hr : HasRing s k c r) : ∃ t, Drains k s (r.content c) t := by
  obtain ⟨u, r', hd, hr', hempty⟩ := drainSoFar_to_empty (.start s) hr rfl
  have hpop := hasRing_exec_queueStep (o := .pop) hr' rfl
  rw [hempty] at hpop
  obtain ⟨t, -, ht, -, -, hrsp⟩ := hpop
  exact ⟨t, u, hd, ht, hrsp⟩

/-- From a buffer that is not empty a drain can have popped any number of items and find one more: the
producer pushes after every pop. -/
theorem drainSoFar_of_length (hr : HasRing s k c r) (hne : r.content c ≠ []) (n : Nat) :
    ∃ xs t r', xs.length = n ∧ DrainSoFar k s xs t ∧ HasRing t k c r' ∧ r'.content c ≠ [] := by
  induction n with
  | zero => exact ⟨[], s, r, rfl, .start s, hr, hne⟩
  | succ n ih =>
    obtain ⟨xs, t, r₁, hlen, hd, hr₁, hne₁⟩ := ih
    obtain ⟨x, rest, hx⟩ := List.exists_cons_of_ne_nil hne₁
    obtain ⟨u, r₂, hu, hr₂, rfl, hrsp⟩ := hasRing_pop hr₁ hx
    obtain ⟨v, r₃, hv, hr₃, hcontent⟩ := hasRing_push_zero hr₂ (length_lt_cap_of_cons hr₁ hx)
    refine ⟨xs ++ [x], v, r₃, by simp [hlen], ?_, hr₃, by simp [hcontent]⟩
    exact .pop s t u v xs x [.rbPush k 0] hd hu hrsp (by simp [Instr.port])
      (execAll_cons_eq_next.2 ⟨v, hv, rfl⟩)

end Drain

/-! ### A run that never ends -/

section Forever

variable {c : RingConfig} {k n : Nat} {r : RingBuf} {s : State} {rs : Nat → Request}

/-- The states of the run of a sequence of requests; where a request is not served the run stays. -/
def statesFrom (s : State) (rs : Nat → Request) : Nat → State
  | 0 => s
  | n + 1 => (nextOf (serve (rs n) (statesFrom s rs n))).getD (statesFrom s rs n)

theorem statesFrom_succ {t : State} (h : serve (rs n) (statesFrom s rs n) = .next t) :
    statesFrom s rs (n + 1) = t := by
  simp [statesFrom, h, nextOf]

/-- A sequence of requests is an infinite run where an invariant, which may depend on the place in the
sequence, lets each request be served and is kept. -/
theorem infiniteRun_of_invariant {P : Nat → State → Prop} (h0 : P 0 s)
    (hstep : ∀ n t, P n t → ∃ u, serve (rs n) t = .next u ∧ P (n + 1) u) :
    InfiniteRun s rs (statesFrom s rs) ∧ ∀ n, P n (statesFrom s rs n) := by
  have hP : ∀ n, P n (statesFrom s rs n) := by
    intro n
    induction n with
    | zero => exact h0
    | succ n ih =>
      obtain ⟨u, hu, hPu⟩ := hstep n _ ih
      rwa [statesFrom_succ hu]
  refine ⟨⟨rfl, fun n => ?_⟩, hP⟩
  obtain ⟨u, hu, -⟩ := hstep n _ (hP n)
  rwa [statesFrom_succ hu]

/-- Pops and pushes in turn, a pop first. -/
def popPush (k n : Nat) : Instr := if Even n then .rbPop k else .rbPush k 0

/-- Before the pop of `popPush` the buffer holds an item, before its push it has room for one. -/
def ReadyFor (k : Nat) (c : RingConfig) (n : Nat) (s : State) : Prop :=
  ∃ r, HasRing s k c r ∧
    if Even n then r.content c ≠ [] else (r.content c).length < c.cap

theorem hasPort_of_hasRing (hr : HasRing s k c r) :
    s.config.hasPort (.cons k) = true ∧ s.config.hasPort (.prod k) = true := by
  have hk := (List.getElem?_eq_some_iff.1 hr.1).1
  simp [Config.hasPort, State.config, hk]

/-- At a pop's turn the pop is served and returns an item, and leaves room for the push. -/
theorem readyFor_pop (hn : Even n) (h : ReadyFor k c n s) :
    ∃ t x, serve (encode (popPush k n)) s = .next t ∧ ReadyFor k c (n + 1) t ∧
      t.responses = s.responses ++ [{ port := .cons k, rsp := .item x }] := by
  obtain ⟨r, hr, hne⟩ := h
  rw [if_pos hn] at hne
  obtain ⟨x, xs, hx⟩ := List.exists_cons_of_ne_nil hne
  obtain ⟨t, r', ht, hr', rfl, hrsp⟩ := hasRing_pop hr hx
  refine ⟨t, x, ?_, ⟨r', hr', ?_⟩, hrsp⟩
  · rwa [popPush, if_pos hn, serve_encode (hasPort_of_hasRing hr).1]
  · rw [if_neg (Nat.even_add_one.not.2 (not_not.2 hn))]
    exact length_lt_cap_of_cons hr hx

/-- At a push's turn the push is served, and leaves an item for the pop. -/
theorem readyFor_push (hn : ¬Even n) (h : ReadyFor k c n s) :
    ∃ t, serve (encode (popPush k n)) s = .next t ∧ ReadyFor k c (n + 1) t := by
  obtain ⟨r, hr, hroom⟩ := h
  rw [if_neg hn] at hroom
  obtain ⟨t, r', ht, hr', hcontent⟩ := hasRing_push_zero hr hroom
  refine ⟨t, ?_, r', hr', ?_⟩
  · rwa [popPush, if_neg hn, serve_encode (hasPort_of_hasRing hr).2]
  · rw [if_pos (Nat.even_add_one.2 hn), hcontent]
    simp

/-- Only the pops of `popPush` stand on the consumer's port. -/
theorem popPush_port_cons : (encode (popPush k n)).port = .cons k ↔ Even n := by
  unfold popPush
  split <;> simp [encode, Request.port, *]

/-- From a buffer that is not empty, pops and pushes in turn are a drain that never ends. -/
theorem drainsForever_popPush (hr : HasRing s k c r) (hne : r.content c ≠ []) :
    DrainsForever k s (fun n => encode (popPush k n))
      (statesFrom s (fun n => encode (popPush k n))) := by
  have hpop : ∀ n, Even n → encode (popPush k n) = encode (.rbPop k) := fun n hn => by
    rw [popPush, if_pos hn]
  obtain ⟨hrun, hready⟩ := infiniteRun_of_invariant (s := s)
    (rs := fun n => encode (popPush k n)) (P := ReadyFor k c) ⟨r, hr, by simpa using hne⟩
    fun n t ht => by
      by_cases hn : Even n
      · obtain ⟨u, x, hu, hready, -⟩ := readyFor_pop hn ht
        exact ⟨u, hu, hready⟩
      · exact readyFor_push hn ht
  refine ⟨hrun, fun n hn => hpop n (popPush_port_cons.1 hn), fun n => ?_, fun n hn => ?_⟩
  · exact ⟨2 * n, by omega, hpop _ (even_two_mul n)⟩
  · have hev : Even n := popPush_port_cons.1 ((congrArg Request.port hn).trans rfl)
    obtain ⟨u, x, hu, -, hrsp⟩ := readyFor_pop hev (hready n)
    exact ⟨x, by rwa [statesFrom_succ (rs := fun n => encode (popPush k n)) hu]⟩

end Forever

/-! ### The assembler: what a line gives can be issued -/

section Accepts

variable {cs : Config} {i j : Instr} {fits : Nat → Bool} {make : Nat → Instr} {k : Nat}
  {m : Mnemonic} {names : List (List Char)} {line w : List Char} {ops : List (List Char)}
  {t : AsmTarget}

theorem plainCommand_eq_ok (h : plainCommand i ops = .ok (some j)) : j = i := by
  cases ops <;> cases h
  rfl

theorem operandCommand_eq_ok (h : operandCommand fits make ops = .ok (some j)) :
    ∃ x, fits x = true ∧ j = make x := by
  unfold operandCommand at h
  split at h
  · cases h
  · split at h
    · cases h
    · rename_i x _
      split at h
      · rename_i hx
        cases h
        exact ⟨x, hx, rfl⟩
      · cases h
  · cases h

/-- The one operand, a literal. -/
theorem operandCommand_literal {x : Nat} (h : literalValue w = some x) :
    operandCommand fits make [w] = if fits x then .ok (some (make x)) else .error .literalTooWide := by
  simp [operandCommand, h]

/-- The unit exists in the block (30_encoding.md R60). -/
def AsmTarget.inBlock (cs : Config) : AsmTarget → Prop
  | .ring k => k < cs.length
  | .crc => True

/-- A unit with a name exists, where the names are of instances of the block. -/
theorem targetOf_inBlock (hcs : cs ≠ []) (hn : names.length ≤ cs.length)
    (h : targetOf names w = some t) : t.inBlock cs := by
  unfold targetOf at h
  split at h
  · cases h
    trivial
  · split at h
    · cases h
      exact List.length_pos_iff.2 hcs
    · split at h
      · rename_i k hk
        cases h
        exact (List.findIdx?_eq_some_iff_getElem.1 hk).1.trans_le hn
      · cases h

/-- A command for a unit that exists addresses it, with an operand that fits. -/
theorem commandOf_wellFormed (ht : t.inBlock cs) (h : commandOf cs t m ops = .ok (some i)) :
    i.wellFormed cs = true := by
  cases t with
  | ring k =>
    have hk : cs.hasPort (.cons k) = true := decide_eq_true ht
    cases m with
    | rbInit | rbPop | rbStatus => rw [plainCommand_eq_ok h]; exact hk
    | rbPush =>
      obtain ⟨x, hx, rfl⟩ := operandCommand_eq_ok h
      exact hx
    | crcInit | crcUpdate | crcFinal => cases h
  | crc =>
    cases m with
    | crcInit | crcFinal => rw [plainCommand_eq_ok h]; rfl
    | crcUpdate =>
      obtain ⟨x, -, rfl⟩ := operandCommand_eq_ok h
      rfl
    | rbInit | rbPush | rbPop | rbStatus => cases h

/-- All that a line which gives a command is: a unit with a name, and a command for it. -/
theorem assembleLine_eq_ok (h : assembleLine names cs line = .ok (some i)) :
    ∃ w t m ops, targetOf names w = some t ∧ commandOf cs t m ops = .ok (some i) := by
  unfold assembleLine at h
  split at h
  · cases h
  · split at h
    · cases h
    · rename_i t ht
      split at h
      · cases h
      · exact ⟨_, t, _, _, ht, h⟩

end Accepts

/-! ### The assembler: the words of a line -/

section Lines

variable {cs : Config} {e gap op unit w x : List Char} {m : Mnemonic} {names : List (List Char)}
  {t : AsmTarget} {k : Nat}

theorem isWordChar_iff {c : Char} : IsWordChar c ↔ c ≠ ';' ∧ c ≠ ' ' ∧ c ≠ '\t' := by
  simp [IsWordChar, isBlank]

/-- An operation's name is a part of a word. -/
theorem operationOf_wordChars (h : operationOf t op = some m) : ∀ c ∈ op, IsWordChar c := by
  unfold operationOf at h
  split at h
  all_goals
    split_ifs at h
    all_goals
      subst_vars
      simp [isWordChar_iff]

/-- The words of a line, its comment left out. -/
abbrev lineWords (line : List Char) : List (List Char) :=
  splitWords [] (line.takeWhile (fun c => decide (c ≠ ';')))

/-- Characters that make a word of a line. -/
abbrev IsWord (w : List Char) : Prop := w ≠ [] ∧ ∀ c ∈ w, IsWordChar c

theorem blanks_no_comment (h : ∀ c ∈ gap, c = ' ' ∨ c = '\t') : ∀ c ∈ gap, c ≠ ';' := by
  intro c hc
  obtain rfl | rfl := h c hc <;> decide

/-- The rest of a line after its last word is blanks and a comment, which are not read. -/
theorem lineWords_lineEnd (hw : ∀ c ∈ w, c ≠ ';') (he : LineEnd e) :
    ∃ b, (∀ c ∈ b, isBlank c = true) ∧ lineWords (w ++ e) = splitWords [] (w ++ b) := by
  obtain ⟨b, comment, rfl, hb, hc⟩ := he
  refine ⟨b, fun c hc => isBlank_eq_true.2 (hb c hc), ?_⟩
  rw [lineWords, ← List.append_assoc, takeWhile_comment _ hc]
  exact List.forall_mem_append.2 ⟨hw, blanks_no_comment hb⟩

/-- A line of one word. -/
theorem lineWords_one (hw : IsWord w) (he : LineEnd e) : lineWords (w ++ e) = [w] := by
  obtain ⟨hne, hw⟩ := hw
  obtain ⟨b, hb, h⟩ := lineWords_lineEnd (fun c hc => (hw c hc).1) he
  rw [h, splitWords_word w (fun c hc => (hw c hc).2), List.nil_append, splitWords_last hne hb]

/-- A line of two words. -/
theorem lineWords_two (hw : IsWord w) (hgne : gap ≠ []) (hg : ∀ c ∈ gap, c = ' ' ∨ c = '\t')
    (hx : IsWord x) (he : LineEnd e) : lineWords (w ++ gap ++ x ++ e) = [w, x] := by
  obtain ⟨hwne, hw⟩ := hw
  obtain ⟨hxne, hx⟩ := hx
  have hcomment : ∀ c ∈ w ++ gap ++ x, c ≠ ';' :=
    List.forall_mem_append.2 ⟨List.forall_mem_append.2 ⟨fun c hc => (hw c hc).1,
      blanks_no_comment hg⟩, fun c hc => (hx c hc).1⟩
  obtain ⟨b, hb, h⟩ := lineWords_lineEnd hcomment he
  rw [h, List.append_assoc, List.append_assoc, splitWords_word w (fun c hc => (hw c hc).2),
    List.nil_append, splitWords_gap hwne hgne (fun c hc => isBlank_eq_true.2 (hg c hc)),
    splitWords_word x (fun c hc => (hx c hc).2), List.nil_append, splitWords_last hxne hb]

/-- `unit` is read as `t`, and is a part of a word in which the first `.` comes after it. -/
abbrev ReadAs (names : List (List Char)) (unit : List Char) (t : AsmTarget) : Prop :=
  targetOf names unit = some t ∧ ∀ c ∈ unit, c ≠ '.' ∧ IsWordChar c

/-- A name that addresses a ring buffer is read as it. -/
theorem readAs_ring (h : AddressesRing names unit k) : ReadAs names unit (.ring k) := by
  refine ⟨targetOf_addressesRing h, ?_⟩
  obtain ⟨rfl, -⟩ | ⟨-, -, -, -, hchars⟩ := h
  · simp [isWordChar_iff]
  · intro c hc
    simpa [isWordChar_iff] using hchars c hc

theorem readAs_crc : ReadAs names ['C', 'R', 'C'] .crc := ⟨rfl, by simp [isWordChar_iff]⟩

/-- A line whose first word is a unit's operation gives its command of the other words. -/
theorem assembleLine_of_lineWords {line : List Char} {ops : List (List Char)}
    (hu : ReadAs names unit t) (ho : operationOf t op = some m)
    (h : lineWords line = (unit ++ '.' :: op) :: ops) :
    assembleLine names cs line = commandOf cs t m ops := by
  obtain ⟨ht, hchars⟩ := hu
  have hdot : ∀ c ∈ unit, decide (c ≠ '.') = true := fun c hc => decide_eq_true (hchars c hc).1
  have htake : (unit ++ '.' :: op).takeWhile (fun c => decide (c ≠ '.')) = unit := by
    rw [List.takeWhile_append_of_pos hdot]
    simp
  have hdrop : ((unit ++ '.' :: op).dropWhile (fun c => decide (c ≠ '.'))).drop 1 = op := by
    rw [List.dropWhile_append_of_pos hdot]
    simp
  simp only [assembleLine, h, htake, hdrop, ht, ho]

/-- A unit and its operation make one word. -/
theorem isWord_unit_op (hu : ReadAs names unit t) (ho : operationOf t op = some m) :
    IsWord (unit ++ '.' :: op) := by
  obtain ⟨-, hchars⟩ := hu
  refine ⟨by simp, List.forall_mem_append.2 ⟨fun c hc => (hchars c hc).2, ?_⟩⟩
  exact List.forall_mem_cons.2 ⟨by decide, operationOf_wordChars ho⟩

/-- A line without an operand. -/
theorem assembleLine_plain (hu : ReadAs names unit t) (ho : operationOf t op = some m)
    (he : LineEnd e) : assembleLine names cs (unit ++ '.' :: op ++ e) = commandOf cs t m [] :=
  assembleLine_of_lineWords hu ho (lineWords_one (isWord_unit_op hu ho) he)

/-- A line with a literal as its operand. -/
theorem assembleLine_literal {v : Nat} (hu : ReadAs names unit t) (ho : operationOf t op = some m)
    (hgne : gap ≠ []) (hg : ∀ c ∈ gap, c = ' ' ∨ c = '\t') (hx : literalValue x = some v)
    (he : LineEnd e) :
    assembleLine names cs (unit ++ '.' :: op ++ gap ++ x ++ e) = commandOf cs t m [x] :=
  assembleLine_of_lineWords hu ho
    (lineWords_two (isWord_unit_op hu ho) hgne hg (literalValue_wordChars hx) he)

end Lines

/-! ### The assembler: literals -/

section Literals

variable {base x : Nat}

theorem digitValue_digitChar {d : Nat} (h : d < 16) : digitValue d.digitChar = some d := by
  revert d
  decide

/-- The digits of a number in a base have the number's value. -/
theorem digitsValue_toDigits (h1 : 1 < base) (h16 : base ≤ 16) (x : Nat) :
    digitsValue base 0 (Nat.toDigits base x) = some x := by
  induction x using Nat.strong_induction_on with
  | _ x ih =>
    obtain hx | hx := Nat.lt_or_ge x base
    · rw [Nat.toDigits_of_lt_base hx]
      simp [digitsValue, digitValue_digitChar (hx.trans_le h16), hx]
    · have hmod : x % base < base := Nat.mod_lt x (by omega)
      rw [Nat.toDigits_of_base_le h1 hx, digitsValue_append, ih _ (Nat.div_lt_self (by omega) h1)]
      simp [digitsValue, digitValue_digitChar (hmod.trans_le h16), hmod, Nat.div_add_mod']

theorem numberValue_toDigits (h1 : 1 < base) (h16 : base ≤ 16) :
    numberValue base (Nat.toDigits base x) = some x := by
  have h := digitsValue_toDigits h1 h16 x
  obtain ⟨c, l, hl⟩ := List.exists_cons_of_ne_nil (Nat.toDigits_ne_nil (n := x) (b := base))
  rwa [hl] at h ⊢

/-- A word of decimal digits does not start with `0x` or `0b`, and is a decimal literal. -/
theorem literalValue_of_isDigit {w : List Char} (hw : ∀ c ∈ w, c.isDigit = true) :
    literalValue w = numberValue 10 w := by
  unfold literalValue
  split
  · exact absurd (hw 'x' (by simp)) (by decide)
  · exact absurd (hw 'b' (by simp)) (by decide)
  · rfl

theorem literalValue_decimal : literalValue (Nat.toDigits 10 x) = some x := by
  rw [literalValue_of_isDigit fun c hc => Nat.isDigit_of_mem_toDigits (by decide) (by decide) hc]
  exact numberValue_toDigits (by decide) (by decide)

end Literals

end Sys2Proof.Machine

/-! ### The statements -/

open Sys2Proof Sys2Proof.Machine

/-- Settles O7: a request decodes to the command it issues and to no other, and an encoding issues its
command. -/
theorem decodingInvertsEncoding : Obligations.DecodingInvertsEncoding := by
  unfold Obligations.DecodingInvertsEncoding
  exact ⟨fun r i => decode_eq_ok_iff, fun cs i h => ⟨decode_encode, encode_wellFormed h⟩⟩

/-- Settles O6: a request is illegal for its word alone, and a fault changes no unit. -/
theorem illegalWordsAreThoseOutsideTheMap : Obligations.IllegalWordsAreThoseOutsideTheMap := by
  unfold Obligations.IllegalWordsAreThoseOutsideTheMap
  refine ⟨fun r => decode_illegal_iff.trans mnemonicOf_illegal_iff, by decide +kernel, ?_⟩
  exact fun r s hp hd => ⟨_, serve_error hp hd, rfl, rfl⟩

/-- Settles O31: a pop is answered NONE on an empty buffer only; popping alone returns the content, and
a producer that pushes after every pop keeps the drain going for ever. -/
theorem drainEndsOnlyWhenTheProducerPauses : Obligations.DrainEndsOnlyWhenTheProducerPauses := by
  unfold Obligations.DrainEndsOnlyWhenTheProducerPauses
  intro s k c r hr
  refine ⟨fun xs u t hd h hnone => ?_, drains_content hr, fun hne n => ?_,
    fun hne => ⟨_, _, drainsForever_popPush hr hne⟩⟩
  · obtain ⟨r', hr'⟩ := drainSoFar_keeps_hasRing hd hr
    obtain ⟨hempty, hunits⟩ := exec_rbPop_none hr' h hnone
    exact ⟨r', hr', hempty, hunits⟩
  · obtain ⟨xs, t, r', hlen, hd, -, -⟩ := drainSoFar_of_length hr hne n
    exact ⟨xs, t, hlen, hd⟩

/-- Settles O39: CRC.INIT, an update per byte, CRC.FINAL. -/
theorem crc16PseudoCommandReturnsTheChecksum : Obligations.Crc16PseudoCommandReturnsTheChecksum := by
  unfold Obligations.Crc16PseudoCommandReturnsTheChecksum
  refine ⟨fun s ds => ?_, fun _ => rfl, rfl, fun _ _ => rfl⟩
  obtain ⟨t, ht, hrsp⟩ := execAll_crc16Commands ds s
  exact ⟨t, ht, newResponses_of_append hrsp⟩

/-- Settles O54, from the form of the answer to a served request. -/
theorem oneResponsePerCommand : Obligations.OneResponsePerCommand := by
  unfold Obligations.OneResponsePerCommand
  intro s t r rest hr hs
  have ha := (step_eq_next.1 hs).1
  rw [step_of_held ha hr] at hs
  obtain ⟨v, hv, hfault, hform⟩ := serve_answers hs
  exact ⟨v, by simpa using hv, kind_ne_three v, hfault, fun _ => hform _, fun _ _ => hform _,
    fun _ => hform _, fun _ => hform _, hform _, fun _ => hform _, hform _⟩

/-- Settles O60: a line's words are its unit's operation and its operand, and the digits of a number
have its value. -/
theorem assembledCommandsAreWellFormed : Obligations.AssembledCommandsAreWellFormed := by
  unfold Obligations.AssembledCommandsAreWellFormed
  refine ⟨fun names cs line i hcs hn h => ?_, fun names cs unit gap e k hk hgne hg he => ?_,
    fun names cs gap e hgne hg he => ?_, fun x => ⟨literalValue_decimal, ?_, ?_⟩⟩
  · obtain ⟨w, t, m, ops, ht, hi⟩ := assembleLine_eq_ok h
    exact commandOf_wellFormed (targetOf_inBlock hcs hn ht) hi
  · have hu := readAs_ring hk
    refine ⟨fun w x hx => ?_, assembleLine_plain (m := .rbInit) hu rfl he,
      assembleLine_plain (m := .rbPop) hu rfl he, assembleLine_plain (m := .rbStatus) hu rfl he⟩
    exact (assembleLine_literal (m := .rbPush) hu rfl hgne hg hx he).trans (operandCommand_literal hx)
  · refine ⟨fun w x hx => ?_, assembleLine_plain (m := .crcInit) readAs_crc rfl he,
      assembleLine_plain (m := .crcFinal) readAs_crc rfl he⟩
    refine (assembleLine_literal (m := .crcUpdate) readAs_crc rfl hgne hg hx he).trans
      ((operandCommand_literal hx).trans ?_)
    simp
  · exact numberValue_toDigits (by decide) (by decide)
  · exact numberValue_toDigits (by decide) (by decide)

/-- Settles O1: a step serves the first held request, and serving runs what it decodes to. -/
theorem stepRunsTheDecodedCommand : Obligations.StepRunsTheDecodedCommand := by
  unfold Obligations.StepRunsTheDecodedCommand
  intro s r rest i ha hr hp hd
  rw [step_of_held ha hr]
  exact serve_ok ((congrArg (Config.hasPort · r.port) (present_config s)).trans hp) hd

/-- Settles O8: each word on its port decodes to its command. -/
theorem sevenWordsDecode : Obligations.SevenWordsDecode := by
  unfold Obligations.SevenWordsDecode
  exact ⟨decode_rbInit, decode_rbPush, decode_rbPop, decode_rbStatus, decode_crcInit,
    decode_crcUpdate, decode_crcFinal⟩

/-- Settles O13: the ring operation refuses the operand, and the command does as its ring operation. -/
theorem tooWidePushOperandIsRefused : Obligations.TooWidePushOperandIsRefused := by
  unfold Obligations.TooWidePushOperandIsRefused
  rintro s k c r x ⟨hu, ha, -⟩ hx
  rw [show Instr.rbPush k x = RingOp.on k (.push x) from rfl, exec_on]
  simp [onRing, hu, ha, ringOp, ringPush_tooWide hx]

end

section
/-! PROOFS of the ring buffer family (40_ring_buffer.md): what each ring buffer command does on a sound
ring, commands that change nothing, the indices, pushes in a row, and two commands that arrive
together. -/

namespace Sys2Proof

/-- The words of `RB.INIT`, `RB.POP` and `RB.STATUS` are legal on no port but a `P_CONS`. -/
theorem decode_consumer_word_wrongPort {w : Byte} (hw : w ∈ [0x00#8, 0x02#8, 0x03#8]) (k : Nat)
    (d : Item) (b : Byte) :
    decode (.prod k w d) = .error .wrongPort ∧ decode (.crc w b) = .error .wrongPort := by
  simp only [List.mem_cons, List.not_mem_nil, or_false] at hw
  rcases hw with rfl | rfl | rfl <;> simp [decode, Request.cmd]

/-- The word of `RB.PUSH` is legal on no port but a `P_PROD`. -/
theorem decode_push_word_wrongPort (k : Nat) (b : Byte) :
    decode (.cons k 0x01#8) = .error .wrongPort ∧ decode (.crc 0x01#8 b) = .error .wrongPort := by
  simp [decode, Request.cmd]

end Sys2Proof

namespace Sys2Proof.Machine

/-! ### Rings: the status word, the indices -/

section Ring

variable {c : RingConfig} {r r' : RingBuf} {o : RingOp} {v : Response} {i w : Nat} {x : Item}

/-- An empty buffer reads 0x00000001, wherever its indices stand (40_ring_buffer.md R83). -/
theorem statusWord_of_isEmpty (he : r.isEmpty = true) : r.statusWord c = 0x00000001#32 := by
  obtain ⟨hh, hf⟩ := ringEmpty_iff.1 he
  have hcount : r.count c = 0 := by simp [RingBuf.count, hh, hf]
  rw [RingBuf.statusWord, hcount, hf, he]
  decide

/-- A full buffer reads `(CAP << 2) | 0b10` (R83). -/
theorem statusWord_of_full (hcap : c.cap < 2 ^ 30) (hf : r.full = true) :
    r.statusWord c = BitVec.ofNat 32 (c.cap * 4 + 2) := by
  have he : r.isEmpty = false := Bool.eq_false_iff.2 fun h => not_isEmpty_and_full ⟨h, hf⟩
  have hcount : r.count c = c.cap := count_of_full hf
  refine BitVec.eq_of_toNat_eq ?_
  rw [statusWord_toNat (by rwa [hcount]), hcount, hf, he, BitVec.toNat_ofNat,
    Nat.mod_eq_of_lt (by omega)]
  rfl

/-- Above its two flags the status word is the count (10_state.md R29). -/
theorem statusWord_div_four (h : r.count c < 2 ^ 30) : (r.statusWord c).toNat / 4 = r.count c := by
  have hflags : r.full.toNat + r.isEmpty.toNat ≤ 1 := full_add_isEmpty
  rw [statusWord_toNat h]
  omega

/-- The new head meets `tail` exactly when the push takes the last free slot (R81). -/
theorem inc_head_eq_tail_iff (hc : 0 < c.cap) (hw : RingWf c r) (hf : r.full = false) :
    inc c r.head = r.tail ↔ r.count c + 1 = c.cap := by
  have hx : 0 < 2 ^ c.elemBits := Nat.two_pow_pos _
  rw [← count_pushed hc hw hx hf, count_eq_cap (pushed_wf hc hw hx hf)]
  simp [pushed, hf]

/-- After an accepted push `full` says whether the new head meets `tail` (R81). -/
theorem pushed_of_not_full (hf : r.full = false) : pushed c r x =
    { buf := r.buf.set r.head x, head := inc c r.head, tail := r.tail
      full := decide (inc c r.head = r.tail) } := by
  simp [pushed, hf]

/-- An index fits a register of `IW` bits (10_state.md R21). -/
theorem lt_two_pow_indexWidth (h : i < c.cap) : i < 2 ^ indexWidth c :=
  calc i < c.cap := h
    _ ≤ 2 ^ Nat.clog 2 c.cap := Nat.le_pow_clog (by decide) _
    _ ≤ 2 ^ indexWidth c := Nat.pow_le_pow_right (by decide) (Nat.le_max_right ..)

theorem indexWidth_of_two_pow (hw : 0 < w) (hc : c.cap = 2 ^ w) : indexWidth c = w := by
  rw [indexWidth, hc, Nat.clog_pow 2 w (by decide)]
  exact Nat.max_eq_right hw

/-- Where `CAP` is a power of two, `inc` is the increment of the register that discards the carry
(40_ring_buffer.md R84). -/
theorem inc_of_two_pow (hc : c.cap = 2 ^ w) : inc c i = (BitVec.ofNat w i + 1).toNat := by
  simp [inc, hc, BitVec.toNat_add]

/-- A ring operation leaves each index, sets it to 0 or advances it by `inc` (R84). -/
theorem ringOp_indices (h : ringOp o c r = .next (r', v)) :
    r'.head ∈ [r.head, 0, inc c r.head] ∧ r'.tail ∈ [r.tail, 0, inc c r.tail] := by
  cases o with
  | init =>
    obtain ⟨rfl, -⟩ := (ringInit_eq_next (c := c)).1 h
    simp [emptied]
  | push x =>
    obtain ⟨-, ⟨-, rfl, -⟩ | ⟨-, -, rfl, -⟩⟩ := ringPush_eq_next.1 h
    · simp
    · simp [pushed]
  | pop =>
    obtain ⟨-, rfl, -⟩ | ⟨-, y, -, rfl, -⟩ := ringPop_eq_next.1 h
    · simp
    · simp [poppedRing]
  | status =>
    obtain ⟨rfl, -⟩ := ringStatus_eq_next.1 h
    simp

end Ring

/-! ### What each command does on a sound ring of a block -/

section Commands

variable {c : RingConfig} {r : RingBuf} {o : RingOp} {v : Response} {k : Nat} {s : State} {x : Item}

/-- What a completed command does to one unit: nothing, or what a ring operation does to its ring. -/
theorem exec_unit_cases {i : Instr} {t : State} {u u' : RingUnit} (h : exec i s = .next t)
    (hu : s.units[k]? = some u) (hu' : t.units[k]? = some u') :
    u' = u ∨ ∃ o r v, ringOp o u.cfg u.ring = .next (r, v) ∧ u' = { u with ring := r } := by
  rcases exec_next_cases h with ⟨l, o, a, r, v, -, ha, -, hop, rfl⟩ | ⟨-, rfl⟩
  · rw [respond_units] at hu'
    by_cases hkl : k = l
    · subst hkl
      cases hu.symm.trans ha
      exact .inr ⟨o, r, v, hop, Option.some.inj (hu'.symm.trans (setRing_get_self s hu r))⟩
    · rw [setRing_get_ne s hkl] at hu'
      exact .inl (Option.some.inj (hu'.symm.trans hu))
  · exact .inl (Option.some.inj (hu'.symm.trans hu))

/-- A ring operation that leaves its ring is a command that does nothing but answer. -/
theorem exec_of_ringOp_unchanged (hr : HasRing s k c r) (hop : ringOp o c r = .next (r, v)) :
    exec (o.on k) s = .next (s.respond (o.port k) v) := by
  rw [(hasRing_exec hr hop).1, hasRing_setRing_self hr]

theorem exec_rbPush_of_full (hr : HasRing s k c r) (hf : r.full = true) (hx : x < 2 ^ c.elemBits) :
    exec (.rbPush k x) s = .next (s.respond (.prod k) .noItem) :=
  exec_of_ringOp_unchanged (o := .push x) hr (ringPush_eq_next.2 ⟨hx, .inl ⟨hf, rfl, rfl⟩⟩)

theorem exec_rbPush_of_not_full (hr : HasRing s k c r) (hf : r.full = false)
    (hx : x < 2 ^ c.elemBits) :
    exec (.rbPush k x) s = .next ((s.setRing k (pushed c r x)).respond (.prod k) .ack) := by
  have hhead : r.head < r.buf.length := by
    obtain ⟨⟨hlen, -⟩, hh, -⟩ := hasRing_wf hr
    rwa [hlen]
  have hop := ringPush_eq_next.2 ⟨hx, .inr ⟨hf, hhead, rfl, rfl⟩⟩
  exact (hasRing_exec (o := .push x) hr hop).1

theorem exec_rbPop_of_isEmpty (hr : HasRing s k c r) (he : r.isEmpty = true) :
    exec (.rbPop k) s = .next (s.respond (.cons k) .noItem) :=
  exec_of_ringOp_unchanged (o := .pop) hr (ringPop_eq_next.2 (.inl ⟨he, rfl, rfl⟩))

/-- A pop on a buffer that is not empty returns the item at `tail`, the first of the content. -/
theorem exec_rbPop_of_not_isEmpty (hr : HasRing s k c r) (he : r.isEmpty = false) :
    ∃ y, r.buf[r.tail]? = some y ∧ (r.content c).head? = some y ∧
      exec (.rbPop k) s = .next ((s.setRing k (poppedRing c r)).respond (.cons k) (.item y)) := by
  have hw := hasRing_wf hr
  have htail : r.tail < r.buf.length := by
    obtain ⟨⟨hlen, -⟩, -, ht, -⟩ := hw
    rwa [hlen]
  have hy := List.getElem?_eq_getElem htail
  have hop := (ringPop_eq_next (c := c)).2 (.inr ⟨he, _, hy, rfl, rfl⟩)
  refine ⟨_, hy, ?_, (hasRing_exec (o := .pop) hr hop).1⟩
  rw [content_popped (hasRing_cap hr) hw he hy, List.head?_cons]

theorem exec_rbStatus_of_hasRing (hr : HasRing s k c r) :
    exec (.rbStatus k) s = .next (s.respond (.cons k) (.status (r.statusWord c))) :=
  exec_of_ringOp_unchanged (o := .status) hr rfl

/-- `RB.INIT` needs no sound ring: whatever the indices are, it goes on (40_ring_buffer.md R80). -/
theorem exec_rbInit (hu : s.units[k]? = some { cfg := c, ring := r }) (ha : c.accepted = true) :
    exec (.rbInit k) s = .next ((s.setRing k (emptied r)).respond (.cons k) .ack) :=
  (exec_on k .init s).trans (onRing_of_unit hu ha rfl)

end Commands

/-! ### Lists of commands, as the bounded queue runs them -/

section Queue

variable {c : RingConfig} {r : RingBuf} {o o' : RingOp} {os : List RingOp} {k : Nat} {s : State}
  {rest : List Request} {q xs : List Item} {x y : Item}

/-- On a sound ring a list of commands whose operands fit completes, leaves the queue's content and
gives the queue's responses, each on its command's port (40_ring_buffer.md R85). -/
theorem execAll_refines_queue (hr : HasRing s k c r) (ho : ∀ o ∈ os, o.fits c = true) :
    ∃ t r', execAll (os.map (RingOp.on k)) s = .next t ∧ HasRing t k c r' ∧
      r'.content c = (queueRun c os (r.content c)).1 ∧
      t.responses = s.responses ++ portResponses k os (queueRun c os (r.content c)).2 := by
  obtain ⟨t, ht⟩ := execAll_ring_completes hr ho
  obtain ⟨r', hr', hcontent, hrsp⟩ := execAll_queueRun hr ht
  exact ⟨t, r', ht, hr', hcontent, hrsp⟩

/-- A queue takes every push it has room for. -/
theorem queueRun_pushes (h : q.length + xs.length ≤ c.cap) :
    queueRun c (xs.map RingOp.push) q = (q ++ xs, List.replicate xs.length .ack) := by
  induction xs generalizing q with
  | nil => simp [queueRun]
  | cons x xs ih =>
    rw [List.length_cons] at h
    have hroom : q.length ≠ c.cap := by omega
    have hrest : (q ++ [x]).length + xs.length ≤ c.cap := by
      rw [List.length_append, List.length_singleton]
      omega
    simp [queueRun, queueStep, hroom, ih hrest, List.replicate_succ]

/-- Accepted pushes are answered ACK on the producer's port. -/
theorem portResponses_pushes : portResponses k (xs.map RingOp.push) (List.replicate xs.length .ack) =
    List.replicate xs.length { port := .prod k, rsp := .ack } := by
  induction xs with
  | nil => rfl
  | cons x xs ih => simp [List.replicate_succ, RingOp.port, ih]

/-- A pop and then a push on a full queue: the oldest item leaves and the push is accepted. -/
theorem queueRun_pop_push_of_full (h : (y :: q).length = c.cap) :
    queueRun c [.pop, .push x] (y :: q) = (q ++ [x], [.item y, .ack]) := by
  have hroom : q.length ≠ c.cap := by
    rw [List.length_cons] at h
    omega
  simp [queueRun, queueStep, hroom]

/-- A push and then a pop on a full queue: the push is dropped and the oldest item leaves. -/
theorem queueRun_push_pop_of_full (h : (y :: q).length = c.cap) :
    queueRun c [.push x, .pop] (y :: q) = (q, [.noItem, .item y]) := by
  simp [queueRun, queueStep, ← h]

/-- A pop and then a push on an empty queue: the pop finds nothing and the item stays. -/
theorem queueRun_pop_push_nil (hc : 0 < c.cap) :
    queueRun c [.pop, .push x] [] = ([x], [.noItem, .ack]) := by
  simp [queueRun, queueStep, hc.ne]

/-- A push and then a pop on an empty queue: the item comes straight out. -/
theorem queueRun_push_pop_nil (hc : 0 < c.cap) :
    queueRun c [.push x, .pop] [] = ([], [.ack, .item x]) := by
  simp [queueRun, queueStep, hc.ne]

/-! ### Two commands that arrive together -/

/-- The ports of a ring that a block has exist. -/
theorem hasPort_on (hr : HasRing s k c r) (o : RingOp) : s.config.hasPort (o.on k).port = true := by
  obtain ⟨hcons, hprod⟩ := hasPort_of_hasRing hr
  cases o with
  | push x => exact hprod
  | init | pop | status => exact hcons

/-- A step whose first held request issues a command on a sound ring serves it as the queue does. -/
theorem step_ring_command (ha : s.config.accepted = true) (hr : HasRing s k c r)
    (ho : o.fits c = true) (hq : (present s).held = encode (o.on k) :: rest) :
    ∃ t r', step s = .next t ∧ HasRing t k c r' ∧
      r'.content c = (queueStep c o (r.content c)).1 ∧
      t.responses = s.responses ++ [{ port := o.port k, rsp := (queueStep c o (r.content c)).2 }] ∧
      t.config = s.config ∧ t.held = rest ∧ t.arrivals = (present s).arrivals := by
  have hr₁ : HasRing { present s with held := rest } k c r := by
    obtain ⟨hu, hcw⟩ := hr
    exact ⟨(congrArg (·[k]?) (present_units s)).trans hu, hcw⟩
  obtain ⟨t, r', ht, hr', hcontent, hrsp⟩ := hasRing_exec_queueStep hr₁ ho
  obtain ⟨-, -, hheld, harr⟩ := exec_frame ht
  have hstep : step s = .next t := by
    rw [step_of_held ha hq, serve_encode (hasPort_on hr₁ o), ht]
  exact ⟨t, r', hstep, hr', hcontent, by simpa using hrsp, step_config hstep, hheld, harr⟩

theorem run_two_steps {t u : State} (h₁ : step s = .next t) (h₂ : step t = .next u) :
    Host.Core.run Sys2Proof.core 2 s = .next u := by
  have hcore₁ : Sys2Proof.core.step s = .next t := h₁
  have hcore₂ : Sys2Proof.core.step t = .next u := h₂
  simp only [Host.Core.run, hcore₁, hcore₂]

/-- Presenting two requests for different ports, where none is held, holds both. -/
theorem present_pair {a b : Request} (hh : s.held = []) (hp : a.port ≠ b.port) :
    present { s with arrivals := [[a, b]] } = { s with held := [a, b], arrivals := [] } := by
  simp [present, presentAll, portFree, defer, hh, hp]

/-- Two commands on a ring that arrive together on its two ports are served in two steps, in the
order the block gives them, as the queue serves them (20_memory.md R50). -/
theorem run_pair_refines_queue (ha : s.config.accepted = true) (hh : s.held = [])
    (hr : HasRing s k c r) (hp : o.port k ≠ o'.port k) (ho : o.fits c = true)
    (ho' : o'.fits c = true) :
    ∃ t r', Host.Core.run Sys2Proof.core 2
        { s with arrivals := [[encode (o.on k), encode (o'.on k)]] } = .next t ∧
      HasRing t k c r' ∧ r'.content c = (queueRun c [o, o'] (r.content c)).1 ∧
      t.responses = s.responses ++ portResponses k [o, o'] (queueRun c [o, o'] (r.content c)).2 := by
  have hpresent := present_pair (s := s) (a := encode (o.on k)) (b := encode (o'.on k)) hh
    (by rwa [encode_port, encode_port, port_on, port_on])
  obtain ⟨t₁, r₁, h₁, hr₁, hcontent₁, hrsp₁, hcfg, hheld, harr⟩ :=
    step_ring_command (s := { s with arrivals := [[encode (o.on k), encode (o'.on k)]] })
      (rest := [encode (o'.on k)]) ha hr ho (by rw [hpresent])
  rw [hpresent] at harr
  have hpresent₁ : present t₁ = t₁ := by simp [present, harr]
  obtain ⟨t₂, r₂, h₂, hr₂, hcontent₂, hrsp₂, -⟩ :=
    step_ring_command (s := t₁) (rest := []) (by rw [hcfg]; exact ha) hr₁ ho'
      (by rw [hpresent₁, hheld])
  refine ⟨t₂, r₂, run_two_steps h₁ h₂, hr₂, by rw [hcontent₂, hcontent₁]; rfl, ?_⟩
  rw [hrsp₂, hrsp₁, hcontent₁]
  simp [queueRun, portResponses]

end Queue

end Sys2Proof.Machine

/-! ### The statements -/

open Sys2Proof Sys2Proof.Machine

/-- Settles O20: each ring operation does to the content what the queue does, command after command. -/
theorem ringRefinesTheBoundedQueue : Obligations.RingRefinesTheBoundedQueue := by
  unfold Obligations.RingRefinesTheBoundedQueue
  intro s k c r os hr ho
  obtain ⟨t, r', ht, hr', hcontent, hrsp⟩ := execAll_refines_queue hr ho
  refine ⟨t, r', ht, hr', hcontent, ?_⟩
  rw [hrsp, List.map_append, portResponses_queueRun_map_rsp]

/-- Settles O9: an emptied ring has no content, and the queue is empty after `RB.INIT`. -/
theorem rbInitEmptiesTheBuffer : Obligations.RbInitEmptiesTheBuffer := by
  unfold Obligations.RbInitEmptiesTheBuffer
  refine ⟨fun s k c r hu ha => ⟨exec_rbInit hu ha, content_emptied (r := r),
    statusWord_of_isEmpty (by simp [RingBuf.isEmpty]), statusWord_of_isEmpty⟩,
    fun s k c r x hr hx => ?_,
    fun k d b => ⟨decode_rbInit, decode_consumer_word_wrongPort (by simp) k d b⟩⟩
  have hcap : 0 < c.cap := hasRing_cap hr
  constructor
  · obtain ⟨t, r', ht, hr', hcontent, -⟩ :=
      execAll_refines_queue (os := [.init, .push x]) hr (by simp [RingOp.fits, hx])
    exact ⟨t, r', ht, hr', by simpa [queueRun, queueStep, hcap.ne] using hcontent⟩
  · obtain ⟨t, r', ht, hr', hcontent, -⟩ :=
      execAll_refines_queue (os := [.push x, .init]) hr (by simp [RingOp.fits, hx])
    exact ⟨t, r', ht, hr', by simpa [queueRun, queueStep] using hcontent⟩

/-- Settles O10: the two cases of a push, on a full buffer and on one with a free slot. -/
theorem rbPushAppendsUnlessFull : Obligations.RbPushAppendsUnlessFull := by
  unfold Obligations.RbPushAppendsUnlessFull
  refine ⟨fun s k c r x hr hx => ⟨fun hf => exec_rbPush_of_full hr hf hx, fun hf => ⟨?_, ?_⟩⟩,
    fun k d b => ⟨decode_rbPush, decode_push_word_wrongPort k b⟩⟩
  · rw [exec_rbPush_of_not_full hr hf hx, pushed_of_not_full hf]
    rfl
  · exact inc_head_eq_tail_iff (hasRing_cap hr) (hasRing_wf hr) hf

/-- Settles O11: the two cases of a pop, on an empty buffer and on one with an oldest item. -/
theorem rbPopReturnsTheOldest : Obligations.RbPopReturnsTheOldest := by
  unfold Obligations.RbPopReturnsTheOldest
  refine ⟨fun s k c r hr => ⟨fun hh hf => exec_rbPop_of_isEmpty hr (ringEmpty_iff.2 ⟨hh, hf⟩),
    fun hne => ?_⟩, fun k d b => ⟨decode_rbPop, decode_consumer_word_wrongPort (by simp) k d b⟩⟩
  have he : r.isEmpty = false := Bool.eq_false_iff.2 fun h => hne (ringEmpty_iff.1 h)
  obtain ⟨y, hslot, hhead, hexec⟩ := exec_rbPop_of_not_isEmpty hr he
  exact ⟨y, hslot, hhead, hexec, rfl, rfl⟩

/-- Settles O12: the status word of the ring, field by field, and its two fixed readings. -/
theorem rbStatusReportsTheState : Obligations.RbStatusReportsTheState := by
  unfold Obligations.RbStatusReportsTheState
  refine ⟨fun s k c r hr => ⟨r.statusWord c, exec_rbStatus_of_hasRing hr,
    statusWord_div_four (hasRing_count_lt hr), statusWord_bit1, statusWord_bit0,
    fun hh hf => statusWord_of_isEmpty (ringEmpty_iff.2 ⟨hh, hf⟩), fun hf => ?_, rfl⟩,
    fun k d b => ⟨decode_rbStatus, decode_consumer_word_wrongPort (by simp) k d b⟩⟩
  obtain ⟨-, ha, -⟩ := hr
  exact statusWord_of_full (accepted_cap ha).2 hf

/-- Settles O16: `inc` on an index and on a register, and the indices any command leaves. -/
theorem indicesAdvanceModuloCapacity : Obligations.IndicesAdvanceModuloCapacity := by
  unfold Obligations.IndicesAdvanceModuloCapacity
  refine ⟨fun c i hi => ⟨inc_lt (Nat.zero_lt_of_lt hi) i, lt_two_pow_indexWidth hi,
    fun h => by simp [inc_eq hi, h], fun h => by simp [inc_eq hi, h.ne]⟩,
    fun c w i hw hc _ => ⟨indexWidth_of_two_pow hw hc, inc_of_two_pow hc⟩,
    fun i s t k u u' h hu hu' => ?_⟩
  rcases exec_unit_cases h hu hu' with rfl | ⟨o, r, v, hop, rfl⟩
  · simp
  · exact ringOp_indices hop

/-- Settles O21: a queue of `CAP` free places takes `CAP` pushes, and its buffer is then full. -/
theorem capacityPushesFillTheBuffer : Obligations.CapacityPushesFillTheBuffer := by
  unfold Obligations.CapacityPushesFillTheBuffer
  intro s k c r xs x hr he hlen hxs hx
  have hos : ∀ o ∈ xs.map RingOp.push, o.fits c = true :=
    List.forall_mem_map.2 fun y hy => decide_eq_true (hxs y hy)
  obtain ⟨t, r', ht, hr', hcontent, hrsp⟩ := execAll_refines_queue hr hos
  rw [(content_eq_nil (hasRing_cap hr) (hasRing_wf hr)).2 he,
    queueRun_pushes (by simp [hlen])] at hcontent hrsp
  rw [portResponses_pushes, hlen] at hrsp
  have hf : r'.full = true := (length_content_eq_cap (hasRing_wf hr')).1 (by simp [hcontent, hlen])
  rw [List.map_map] at ht
  exact ⟨t, r', ht, hr', hf, hrsp, exec_rbPush_of_full hr' hf hx⟩

/-- Settles O23: the content of a full buffer has an oldest item, and the block serves the two commands
in the order given, as the queue does. -/
theorem pushAndPopTogetherOnAFullBuffer : Obligations.PushAndPopTogetherOnAFullBuffer := by
  unfold Obligations.PushAndPopTogetherOnAFullBuffer
  intro s k c r x ha hh hr hf hx
  have hlen : (r.content c).length = c.cap := (length_content_eq_cap (hasRing_wf hr)).2 hf
  obtain ⟨y, q, hq⟩ := List.exists_cons_of_length_pos (hlen ▸ hasRing_cap hr)
  rw [hq] at hlen
  have hpush : (RingOp.push x).fits c = true := decide_eq_true hx
  refine ⟨y, by rw [hq, List.head?_cons], ?_, ?_⟩
  · obtain ⟨t, r', ht, hr', hcontent, hrsp⟩ := run_pair_refines_queue (o := .pop) (o' := .push x)
      ha hh hr (by simp [RingOp.port]) rfl hpush
    rw [hq, queueRun_pop_push_of_full hlen] at hcontent hrsp
    refine ⟨t, r', ht, hr', (length_content_eq_cap (hasRing_wf hr')).1 ?_, hrsp⟩
    simpa [hcontent] using hlen
  · obtain ⟨t, r', ht, hr', hcontent, hrsp⟩ := run_pair_refines_queue (o := .push x) (o' := .pop)
      ha hh hr (by simp [RingOp.port]) hpush rfl
    rw [hq, queueRun_push_pop_of_full hlen] at hcontent hrsp
    refine ⟨t, r', ht, hr', ?_, hrsp⟩
    rw [← length_content, hcontent, ← hlen, List.length_cons, Nat.add_sub_cancel]

/-- Settles O24: the block serves the two commands in the order given, as the queue does. -/
theorem pushAndPopTogetherOnAnEmptyBuffer : Obligations.PushAndPopTogetherOnAnEmptyBuffer := by
  unfold Obligations.PushAndPopTogetherOnAnEmptyBuffer
  intro s k c r x ha hh hr he hx
  have hcap : 0 < c.cap := hasRing_cap hr
  have hnil : r.content c = [] := (content_eq_nil hcap (hasRing_wf hr)).2 he
  have hpush : (RingOp.push x).fits c = true := decide_eq_true hx
  constructor
  · obtain ⟨t, r', ht, hr', hcontent, hrsp⟩ := run_pair_refines_queue (o := .pop) (o' := .push x)
      ha hh hr (by simp [RingOp.port]) rfl hpush
    rw [hnil, queueRun_pop_push_nil hcap] at hcontent hrsp
    exact ⟨t, r', ht, hr', hcontent, hrsp⟩
  · obtain ⟨t, r', ht, hr', hcontent, hrsp⟩ := run_pair_refines_queue (o := .push x) (o' := .pop)
      ha hh hr (by simp [RingOp.port]) hpush rfl
    rw [hnil, queueRun_push_pop_nil hcap] at hcontent hrsp
    exact ⟨t, r', ht, hr', (content_eq_nil hcap (hasRing_wf hr')).1 hcontent, hcontent, hrsp⟩

/-- Settles O22, from the cases of a push, a pop and a status that leave the ring. -/
theorem noOpLaws : Obligations.NoOpLaws := by
  unfold Obligations.NoOpLaws
  exact fun s k c r x hr => ⟨exec_rbPush_of_full hr, exec_rbPop_of_isEmpty hr, _,
    exec_rbStatus_of_hasRing hr⟩

end

section
/-! PROOFS of the CRC family (41_crc16.md): the three CRC words belong to `P_CRC` alone; `acc` is the
fold of the bytes since the last `CRC.INIT`, whatever else runs; and every operation of the checksum is
injective, so that one changed byte changes the checksum. -/

namespace Sys2Proof

/-- The words of the CRC commands are legal on no port but `P_CRC`. -/
theorem decode_crc_word_wrongPort {w : Byte} (hw : w ∈ [0x40#8, 0x41#8, 0x42#8]) (k : Nat) (d : Item) :
    decode (.prod k w d) = .error .wrongPort ∧ decode (.cons k w) = .error .wrongPort := by
  simp only [List.mem_cons, List.not_mem_nil, or_false] at hw
  rcases hw with rfl | rfl | rfl <;> simp [decode, Request.cmd]

end Sys2Proof

namespace Sys2Proof.Machine

/-! ### The accumulator is the fold of the bytes since the last CRC.INIT -/

section Fold

variable {i : Instr} {is : List Instr} {ds : List Byte} {s t : State}

/-- `acc` after the bytes `ds` since a `CRC.INIT` (41_crc16.md R103). -/
def crcFold (ds : List Byte) : Word16 := ds.foldl crcStep crcStart

theorem crc16_eq (ds : List Byte) : crc16 ds = crcFinal (crcFold ds) := rfl

/-- A ring buffer command has no effect on `acc`. -/
theorem crcAcc_on (k : Nat) (o : RingOp) (a : Word16) : crcAcc (o.on k) a = a := by
  cases o <;> rfl

/-- Every completed command changes `acc` as its CRC operation says, and in no other way. -/
theorem exec_acc (h : exec i s = .next t) : t.acc = crcAcc i s.acc := by
  rcases exec_next_cases h with ⟨k, o, u, r, v, rfl, -, -, -, rfl⟩ | ⟨-, rfl⟩
  · exact (crcAcc_on k o s.acc).symm
  · rfl

/-- What a command does to the fold of the bytes is what it does to the bytes. -/
theorem crcAcc_crcFold (i : Instr) (ds : List Byte) :
    crcAcc i (crcFold ds) = crcFold (bytesSinceInit [i] ds) := by
  cases i with
  | crcUpdate b => simp [crcAcc, crcFold, bytesSinceInit]
  | crcInit | crcFinal | rbInit k | rbPush k x | rbPop k | rbStatus k => rfl

theorem bytesSinceInit_cons (i : Instr) (is : List Instr) (ds : List Byte) :
    bytesSinceInit (i :: is) ds = bytesSinceInit is (bytesSinceInit [i] ds) := by
  cases i <;> rfl

/-- Over any completed commands, `acc` stays the fold of the bytes since the last `CRC.INIT`. -/
theorem execAll_keeps_crcFold (h : execAll is s = .next t) (hs : s.acc = crcFold ds) :
    t.acc = crcFold (bytesSinceInit is ds) := by
  induction is generalizing s ds with
  | nil =>
    cases h
    exact hs
  | cons i is ih =>
    obtain ⟨u, hi, hrest⟩ := execAll_cons_eq_next.1 h
    have hu : u.acc = crcFold (bytesSinceInit [i] ds) := by
      rw [exec_acc hi, hs, crcAcc_crcFold]
    rw [bytesSinceInit_cons]
    exact ih hrest hu

/-- Where `acc` is the fold of `ds`, `CRC.FINAL` answers the checksum of `ds`. -/
theorem exec_crcFinal_of_crcFold (ht : t.acc = crcFold ds) :
    exec .crcFinal t = .next (t.respond .crc (.crc (crc16 ds))) := by
  rw [crc16_eq, ← ht]
  exact exec_crc rfl t

end Fold

/-! ### The checksum loses nothing -/

section Injective

variable {a b : Word16} {v w : Byte}

/-- The shifted-out bit of `acc` comes back as bit 15, the highest coefficient of the polynomial. -/
theorem crcShift_bit15 (a : Word16) : (crcShift a).getLsbD 15 = a.getLsbD 0 := by
  unfold crcShift poly
  split
  next h => simpa using h.symm
  next h => simpa using h

theorem crcShift_injective : Function.Injective crcShift := by
  intro a b h
  have hlow : a.getLsbD 0 = b.getLsbD 0 := by rw [← crcShift_bit15 a, h, crcShift_bit15]
  have hhigh : a >>> 1 = b >>> 1 := by
    unfold crcShift at h
    rw [hlow] at h
    split at h
    · exact (BitVec.xor_left_inj poly).1 h
    · exact h
  refine BitVec.eq_of_getLsbD_eq fun j _ => ?_
  cases j with
  | zero => exact hlow
  | succ j => simpa [Nat.add_comm] using congrArg (BitVec.getLsbD · j) hhigh

theorem crcShifts_injective (n : Nat) : Function.Injective (crcShifts n) := by
  induction n with
  | zero => exact fun _ _ h => h
  | succ n ih => exact ih.comp crcShift_injective

theorem crcStep_acc_injective (v : Byte) : Function.Injective (crcStep · v) :=
  fun _ _ h => (BitVec.xor_left_inj _).1 (crcShifts_injective 8 h)

theorem crcStep_byte_injective (a : Word16) : Function.Injective (crcStep a) := by
  intro v w h
  have hwide : v.setWidth 16 = w.setWidth 16 := (BitVec.xor_right_inj a).1 (crcShifts_injective 8 h)
  simpa using congrArg (BitVec.setWidth 8) hwide

/-- Bytes given after a difference in `acc` never cancel it. -/
theorem foldl_crcStep_injective (ds : List Byte) :
    Function.Injective fun a => ds.foldl crcStep a := by
  induction ds with
  | nil => exact fun _ _ h => h
  | cons d ds ih => exact ih.comp (crcStep_acc_injective d)

/-- A changed byte makes a difference in `acc`, at its place and so at the end. -/
theorem foldl_crcStep_set_ne {m : List Byte} {i : Nat} (hi : i < m.length) (hv : v ≠ m[i]) :
    (m.set i v).foldl crcStep a ≠ m.foldl crcStep a := by
  induction m generalizing a i with
  | nil => cases hi
  | cons d m ih =>
    cases i with
    | zero => exact fun h => hv (crcStep_byte_injective a (foldl_crcStep_injective m h))
    | succ i => exact ih (Nat.lt_of_succ_lt_succ hi) hv

/-- A 16-bit word is its two bytes. -/
theorem word16_of_bytes (a : Word16) : a.extractLsb' 8 8 ++ a.extractLsb' 0 8 = a :=
  (BitVec.extractLsb'_append_extractLsb'_eq_extractLsb' rfl).trans BitVec.extractLsb'_eq_self

theorem word16_eq_of_bytes (hlow : a.extractLsb' 0 8 = b.extractLsb' 0 8)
    (hhigh : a.extractLsb' 8 8 = b.extractLsb' 8 8) : a = b := by
  rw [← word16_of_bytes a, hlow, hhigh, word16_of_bytes]

theorem littleEndian16_injective : Function.Injective littleEndian16 := by
  intro a b h
  simp only [littleEndian16, List.cons.injEq, and_true] at h
  obtain ⟨hlow, hhigh⟩ := h
  exact word16_eq_of_bytes hlow hhigh

theorem swap16_injective : Function.Injective swap16 := by
  intro a b h
  refine word16_eq_of_bytes ?_ ?_
  · rw [← swap16_high a, h, swap16_high]
  · rw [← swap16_low a, h, swap16_low]

theorem crcFinal_injective : Function.Injective crcFinal :=
  fun _ _ h => BitVec.not_inj.1 (swap16_injective h)

/-- One changed byte changes the checksum (41_crc16.md R112). -/
theorem crc16_set_ne {m : List Byte} {i : Nat} (hi : i < m.length) (hv : v ≠ m[i]) :
    crc16 (m.set i v) ≠ crc16 m :=
  fun h => foldl_crcStep_set_ne hi hv (crcFinal_injective h)

end Injective

/-! ### The result -/

/-- The result for the start value of `acc` (41_crc16.md R107). -/
theorem crcFinal_crcStart : crcFinal crcStart = 0x0000#16 := by decide

section Result

variable {j : Nat}

/-- The low byte of the result is the complement of the high byte of `acc` (41_crc16.md R102). -/
theorem crcFinal_lowByte (a : Word16) (hj : j < 8) :
    (crcFinal a).getLsbD j = !a.getLsbD (j + 8) := by
  have hbyte := congrArg (BitVec.getLsbD · j) (swap16_low (~~~a))
  have hlt : 8 + j < 16 := Nat.add_lt_add_left hj 8
  simpa [crcFinal, hj, hlt, Nat.add_comm j 8] using hbyte

/-- The high byte of the result is the complement of the low byte of `acc`. -/
theorem crcFinal_highByte (a : Word16) (hj : j < 8) :
    (crcFinal a).getLsbD (j + 8) = !a.getLsbD j := by
  have hbyte := congrArg (BitVec.getLsbD · j) (swap16_high (~~~a))
  have hlt : j < 16 := hj.trans (by decide)
  simpa [crcFinal, hj, hlt, Nat.add_comm j 8] using hbyte

end Result

end Sys2Proof.Machine

/-! ### The statements -/

open Sys2Proof Sys2Proof.Machine

/-- Settles O40: after CRC.INIT `acc` is the fold of no bytes, and every command keeps it the fold of
the bytes since the last CRC.INIT. -/
theorem streamedChecksum : Obligations.StreamedChecksum := by
  unfold Obligations.StreamedChecksum
  intro s t is h
  obtain ⟨u, hinit, hrest⟩ := execAll_cons_eq_next.1 h
  exact exec_crcFinal_of_crcFold (execAll_keeps_crcFold hrest (exec_acc hinit))

/-- Settles O42: the step, the bytes after it and the final swap are injective. -/
theorem singleByteChangeIsDetected : Obligations.SingleByteChangeIsDetected := by
  unfold Obligations.SingleByteChangeIsDetected
  exact fun m i v hi hv => crc16_set_ne hi hv

/-- Settles O33: the one shape of the CRC commands, with `acc` at its start value. -/
theorem crcInitStartsAComputation : Obligations.CrcInitStartsAComputation := by
  unfold Obligations.CrcInitStartsAComputation
  refine ⟨fun s => ⟨exec_crc rfl s, ?_⟩, fun k d b => ⟨decode_crcInit,
    decode_crc_word_wrongPort (by simp) k d⟩⟩
  refine ⟨_, execAll_cons_eq_next.2 ⟨_, exec_crc rfl s, execAll_pair.2
    ⟨_, exec_crc rfl _, exec_crc rfl _⟩⟩, rfl, newResponses_of_append ?_⟩
  simp [crcAcc, crcAnswer, crcFinal_crcStart]

/-- Settles O34: the one shape of the CRC commands, and the step evaluated at its corners. -/
theorem crcUpdateFoldsOneByte : Obligations.CrcUpdateFoldsOneByte := by
  unfold Obligations.CrcUpdateFoldsOneByte
  exact ⟨fun s b => exec_crc rfl s, by decide, by decide, by decide, by decide, fun _ => rfl,
    fun k d b => ⟨decode_crcUpdate, decode_crc_word_wrongPort (by simp) k d⟩⟩

/-- Settles O35: CRC.FINAL answers `crc_final(acc)`, bit by bit, and leaves `acc` to the next update. -/
theorem crcFinalReturnsTheChecksum : Obligations.CrcFinalReturnsTheChecksum := by
  unfold Obligations.CrcFinalReturnsTheChecksum
  refine ⟨fun s => ⟨crcFinal s.acc, exec_crc rfl s, fun j hj => ?_, fun _ => rfl, rfl⟩,
    fun s b => ?_, crcFinal_crcStart, by decide,
    fun k d b => ⟨decode_crcFinal, decode_crc_word_wrongPort (by simp) k d⟩⟩
  · exact ⟨crcFinal_lowByte s.acc hj, crcFinal_highByte s.acc hj⟩
  · exact ⟨_, execAll_pair.2 ⟨_, exec_crc rfl s, exec_crc rfl _⟩, rfl⟩

/-- Settles O41: reset leaves `acc` as CRC.INIT does, so both runs end with the fold of the same bytes. -/
theorem checksumDependsOnlyOnTheBytes : Obligations.ChecksumDependsOnlyOnTheBytes := by
  unfold Obligations.ChecksumDependsOnlyOnTheBytes
  intro cs cs' is is' t t' h h' hbytes
  have ht : t.acc = crcFold (bytesSinceInit is []) := execAll_keeps_crcFold h rfl
  have ht' : t'.acc = crcFold (bytesSinceInit is []) := hbytes ▸ execAll_keeps_crcFold h' rfl
  exact ⟨_, exec_crcFinal_of_crcFold ht, exec_crcFinal_of_crcFold ht'⟩

/-- Settles O44: CRC16 over the covered bytes answers their checksum, which the wire carries byte for
byte. -/
theorem packetCarriesItsChecksum : Obligations.PacketCarriesItsChecksum := by
  unfold Obligations.PacketCarriesItsChecksum
  refine ⟨fun sync p => ⟨rfl, fun s => ?_⟩, fun p i v hi hv h => ?_⟩
  · obtain ⟨t, ht, hrsp⟩ := execAll_crc16Commands p.covered s
    exact ⟨t, crc16 p.covered, ht, by simp [hrsp], rfl⟩
  · exact crc16_set_ne hi hv (littleEndian16_injective h)

/-- Settles O38: no bytes leave `acc` at 0xFFFF, whose complement is 0. -/
theorem zeroLengthChecksumIsZero : Obligations.ZeroLengthChecksumIsZero := by
  unfold Obligations.ZeroLengthChecksumIsZero
  exact ⟨crcFinal_crcStart, rfl, fun s => execAll_crc16Commands [] s⟩

end

section
/-! PROOFS of the exceptions family (60_exceptions.md): the cause of each of the two faults; that what is
served after a fault is served as without it; the fault log of a run; and that a sound block goes on. -/

namespace Sys2Proof

/-! ### The causes of the two faults -/

section Causes

variable {q : Request} {w : Byte}

/-- The seven words of 30_encoding.md R62 are those of the mnemonics. -/
theorem mem_words_iff :
    w ∈ [0x00#8, 0x01#8, 0x02#8, 0x03#8, 0x40#8, 0x41#8, 0x42#8] ↔
      ∃ m, mnemonicOf w = .ok m := by
  simp only [mnemonicOf_eq_ok]
  constructor
  · simp only [List.mem_cons, List.not_mem_nil, or_false]
    rintro (h | h | h | h | h | h | h)
    exacts [⟨.rbInit, h⟩, ⟨.rbPush, h⟩, ⟨.rbPop, h⟩, ⟨.rbStatus, h⟩, ⟨.crcInit, h⟩,
      ⟨.crcUpdate, h⟩, ⟨.crcFinal, h⟩]
  · rintro ⟨m, rfl⟩
    cases m <;> simp [Mnemonic.word]

/-- A request is illegal when its word is none of the seven, whatever its port. -/
theorem decode_illegal_iff_not_mem : decode q = .error .illegalCommand ↔
    q.cmd ∉ [0x00#8, 0x01#8, 0x02#8, 0x03#8, 0x40#8, 0x41#8, 0x42#8] := by
  rw [decode_illegal_iff, mem_words_iff]
  cases hm : mnemonicOf q.cmd with
  | error e => simp [mnemonicOf_error hm]
  | ok m => simp

/-- The word is one of the seven and the port is not one where it is legal: `P_PROD` for `RB.PUSH`,
`P_CONS` for the other ring buffer commands, `P_CRC` for the CRC commands (30_encoding.md R66). -/
abbrev OnWrongPort (q : Request) : Prop :=
  (q.cmd = 0x01#8 ∧ ∀ k, q.port ≠ .prod k) ∨
  (q.cmd ∈ [0x00#8, 0x02#8, 0x03#8] ∧ ∀ k, q.port ≠ .cons k) ∨
  (q.cmd ∈ [0x40#8, 0x41#8, 0x42#8] ∧ q.port ≠ .crc)

/-- A word that is refused for its port would have decoded on its own. -/
theorem onWrongPort_of_decode (h : decode q = .error .wrongPort) : OnWrongPort q := by
  cases hm : mnemonicOf q.cmd with
  | error e =>
    cases mnemonicOf_error hm
    cases h.symm.trans (decode_illegal_iff.2 hm)
  | ok m =>
    have hw := mnemonicOf_eq_ok.1 hm
    cases m with
    | rbPush =>
      refine .inl ⟨hw, fun k hp => ?_⟩
      obtain ⟨x, hq⟩ := eq_prod_of_port hp
      rw [hq, hw] at h
      cases decode_rbPush.symm.trans h
    | rbInit | rbPop | rbStatus =>
      refine .inr (.inl ⟨by simp [hw, Mnemonic.word], fun k hp => ?_⟩)
      rw [eq_cons_of_port hp, hw] at h
      simp [Mnemonic.word] at h
    | crcInit | crcUpdate | crcFinal =>
      refine .inr (.inr ⟨by simp [hw, Mnemonic.word], fun hp => ?_⟩)
      obtain ⟨b, hq⟩ := eq_crc_of_port hp
      rw [hq, hw] at h
      simp [Mnemonic.word] at h

/-- Each of the seven words is refused on every port where it is not legal. -/
theorem decode_of_onWrongPort (h : OnWrongPort q) : decode q = .error .wrongPort := by
  obtain ⟨hw, hp⟩ | ⟨hw, hp⟩ | ⟨hw, hp⟩ := h
  · cases q with
    | prod k w x => exact absurd rfl (hp k)
    | cons k w => cases hw; exact (decode_push_word_wrongPort k 0).1
    | crc w b => cases hw; exact (decode_push_word_wrongPort 0 b).2
  · cases q with
    | prod k w x => exact (decode_consumer_word_wrongPort hw k x 0).1
    | cons k w => exact absurd rfl (hp k)
    | crc w b => exact (decode_consumer_word_wrongPort hw 0 0 b).2
  · cases q with
    | prod k w x => exact (decode_crc_word_wrongPort hw k x).1
    | cons k w => exact (decode_crc_word_wrongPort hw k 0).2
    | crc w b => exact absurd rfl hp

theorem decode_wrongPort_iff : decode q = .error .wrongPort ↔ OnWrongPort q :=
  ⟨onWrongPort_of_decode, decode_of_onWrongPort⟩

end Causes

end Sys2Proof

namespace Sys2Proof.Machine

/-! ### Nothing served reads the responses given before -/

section Responses

variable {i : Instr} {q : Request} {s t : State}

/-- No command reads the responses: after others it does the same and gives the same one. -/
theorem exec_with_responses (h : exec i s = .next t) : ∃ a, t.responses = s.responses ++ [a] ∧
    ∀ l, exec i { s with responses := l } = .next { t with responses := l ++ [a] } := by
  rcases exec_next_cases h with ⟨k, o, u, r, v, rfl, hu, ha, hr, rfl⟩ | ⟨hp, rfl⟩
  · exact ⟨_, rfl, fun l => exec_on_eq_next.2 ⟨u, r, v, hu, ha, hr, rfl⟩⟩
  · exact ⟨_, rfl, fun l => exec_crc hp _⟩

/-- Serving does not read the responses: after others it does the same and gives the same one. -/
theorem serve_with_responses (h : serve q s = .next t) : ∃ a, t.responses = s.responses ++ [a] ∧
    ∀ l, serve q { s with responses := l } = .next { t with responses := l ++ [a] } := by
  obtain ⟨hp, ⟨i, hd, hi⟩ | ⟨c, hd, rfl⟩⟩ := serve_eq_next.1 h
  · obtain ⟨a, ha, hexec⟩ := exec_with_responses hi
    exact ⟨a, ha, fun l => serve_eq_next.2 ⟨hp, .inl ⟨i, hd, hexec l⟩⟩⟩
  · exact ⟨_, rfl, fun l => serve_error (s := { s with responses := l }) hp hd⟩

/-- A request is served after a fault as without it: same units, same response. -/
theorem serve_after_raise (h : serve q s = .next t) (c : FaultCode) (w : Byte) (p : Port) :
    ∃ v, serve q (s.raise c w p) = .next v ∧ SameUnits t v ∧
      v.responses.getLast? = t.responses.getLast? := by
  obtain ⟨l, hl⟩ := serve_with_faultLog h (s.raise c w p).faultLog
  obtain ⟨a, ha, hserve⟩ := serve_with_responses hl
  have hlast : t.responses = s.responses ++ [a] := ha
  exact ⟨_, hserve (s.raise c w p).responses, ⟨rfl, rfl⟩, by simp [hlast]⟩

end Responses

/-! ### The fault log of a run -/

section Log

variable {r : Request} {rs : List Request} {s t : State}

theorem faultsOf_cons_ok {i : Instr} (h : decode r = .ok i) : faultsOf (r :: rs) = faultsOf rs := by
  simp [faultsOf, h]

theorem faultsOf_cons_error {c : FaultCode} (h : decode r = .error c) :
    faultsOf (r :: rs) = { code := c, cmd := r.cmd, port := r.port } :: faultsOf rs := by
  simp [faultsOf, h]

/-- Requests have no fault among them exactly when each decodes. -/
theorem faultsOf_eq_nil : faultsOf rs = [] ↔ ∀ r ∈ rs, ∃ i, decode r = .ok i := by
  induction rs with
  | nil => simp [faultsOf]
  | cons r rs ih =>
    cases hd : decode r with
    | ok i => simp [faultsOf_cons_ok hd, hd, ih]
    | error c => simp [faultsOf_cons_error hd, hd]

/-- A run appends the records of its faults, in order (60_exceptions.md R126). -/
theorem serveAll_faultLog (h : serveAll rs s = .next t) :
    t.faultLog = s.faultLog ++ faultsOf rs := by
  induction rs generalizing s with
  | nil =>
    cases h
    exact (List.append_nil _).symm
  | cons r rs ih =>
    obtain ⟨u, hu, hrest⟩ := serveAll_cons_eq_next.1 h
    obtain ⟨-, ⟨i, hd, hi⟩ | ⟨c, hd, rfl⟩⟩ := serve_eq_next.1 hu
    · obtain ⟨-, hlog, -, -⟩ := exec_frame hi
      rw [ih hrest, hlog, faultsOf_cons_ok hd]
    · rw [ih hrest, raise_faultLog, faultsOf_cons_error hd, List.append_assoc,
        List.singleton_append]

/-- A run in which every request decodes is the execution of the commands. -/
theorem execAll_of_serveAll {is : List Instr} (h : serveAll rs s = .next t)
    (hd : rs.map decode = is.map Except.ok) : execAll is s = .next t := by
  induction rs generalizing s is with
  | nil =>
    obtain rfl : is = [] := List.map_eq_nil_iff.1 hd.symm
    exact h
  | cons r rs ih =>
    obtain ⟨i, is, rfl, hi, his⟩ := List.map_eq_cons_iff.1 hd.symm
    obtain ⟨u, hu, hrest⟩ := serveAll_cons_eq_next.1 h
    obtain ⟨hp, -⟩ := serve_eq_next.1 hu
    rw [serve_ok hp hi.symm] at hu
    exact execAll_cons_eq_next.2 ⟨u, hu, ih hrest his.symm⟩

end Log

/-! ### A sound block goes on -/

/-- A sound block takes a step: idle, or it serves the first held command, which is well formed. -/
theorem step_completes {s : State} (h : Inv s) : ∃ t, step s = .next t := by
  have ⟨ha, _⟩ := h
  have hp := present_inv h
  have ⟨_, _, hwf, _⟩ := hp
  cases hq : (present s).held with
  | nil => exact ⟨_, step_eq_next.2 ⟨ha, .inl ⟨hq, rfl⟩⟩⟩
  | cons q rest =>
    rw [step_of_held ha hq]
    exact serve_completes (takeHeld_inv hp hq) (hwf q (by simp [State.outstanding, hq]))

/-- The CRC unit has no error result (60_exceptions.md R120). -/
theorem crcAnswer_kind (i : Instr) (a : Word16) : (crcAnswer i a).kind = 0b00#2 := by
  cases i <;> rfl

end Sys2Proof.Machine

/-! ### The statements -/

open Sys2Proof Sys2Proof.Machine

/-- Settles O2: the step serves the first held request, whose fault is raised. -/
theorem faultRecordsCodeWordAndPort : Obligations.FaultRecordsCodeWordAndPort := by
  unfold Obligations.FaultRecordsCodeWordAndPort
  intro s r rest c ha hr hp hd
  refine ⟨_, (step_of_held ha hr).trans (serve_error ?_ hd), ?_, ?_, rfl, fun _ => rfl⟩
  · exact (congrArg (Config.hasPort · r.port) (present_config s)).trans hp
  · rw [raise_faultLog, present_faultLog]
  · rw [raise_responses, present_responses]

/-- Settles O3: a raised fault changes the fault log and the responses alone, and serving reads
neither. -/
theorem faultingCommandChangesNoUnitState : Obligations.FaultingCommandChangesNoUnitState := by
  unfold Obligations.FaultingCommandChangesNoUnitState
  exact fun s r c hp hd => ⟨_, serve_error hp hd, ⟨rfl, rfl⟩, rfl, rfl, rfl,
    fun q u hu => serve_after_raise hu c r.cmd r.port⟩

/-- Settles O4: the log of a run is the old one and the faults of its requests, so it is empty when
both are. -/
theorem cleanRunsAreThoseWithoutAFault : Obligations.CleanRunsAreThoseWithoutAFault := by
  unfold Obligations.CleanRunsAreThoseWithoutAFault
  intro s t rs h
  have hlog := serveAll_faultLog h
  refine ⟨hlog, ?_, fun is => execAll_of_serveAll h⟩
  rw [State.clean, hlog, List.append_eq_nil_iff, faultsOf_eq_nil]

/-- Settles O5: one cause for each of the two codes. -/
theorem exactlyTwoFaultsIllegalWordFirst : Obligations.ExactlyTwoFaultsIllegalWordFirst := by
  unfold Obligations.ExactlyTwoFaultsIllegalWordFirst
  refine ⟨fun r c => ?_, rfl, rfl, fun c => ?_⟩
  · cases c with
    | illegalCommand =>
      simp only [reduceCtorEq, true_and, false_and, or_false]
      exact decode_illegal_iff_not_mem
    | wrongPort =>
      simp only [reduceCtorEq, true_and, false_and, false_or]
      exact decode_wrongPort_iff
  · cases c with
    | illegalCommand => exact .inl rfl
    | wrongPort => exact .inr rfl

/-- Settles O27: a push on a full buffer, a pop on an empty one and a CRC command only answer, or
change `acc`; none raises a fault. -/
theorem fullAndEmptyAreResultsNotFaults : Obligations.FullAndEmptyAreResultsNotFaults := by
  unfold Obligations.FullAndEmptyAreResultsNotFaults
  refine ⟨fun s k c r x hr => ⟨fun hf hx => ?_, fun he => ?_⟩, rfl, fun s i hi => ?_⟩
  · exact ⟨_, exec_rbPush_of_full hr hf hx, rfl, newResponses_respond rfl _ _⟩
  · exact ⟨_, exec_rbPop_of_isEmpty hr he, rfl, newResponses_respond rfl _ _⟩
  · exact ⟨_, _, exec_crc hi s, rfl, newResponses_respond rfl _ _, crcAnswer_kind i s.acc⟩

/-- Settles O48: an idle step does nothing, and a command that stands on its port completes. -/
theorem soundBlockNeverStops : Obligations.SoundBlockNeverStops := by
  unfold Obligations.SoundBlockNeverStops
  exact fun s h => step_completes h

end

section
/-! PROOFS of the reset and hazards family (70_reset_and_hazards.md): a run shows of a buffer only its
content, so neither the start index nor the unoccupied slots are seen; a stale count still bounds the
pops; runs may be infinite; and what reset and the two INIT commands leave. -/

namespace Sys2Proof.Machine

/-! ### A run shows of a buffer only its content -/

section Content

variable {c : RingConfig} {r p r' : RingBuf} {o : RingOp} {v : Response} {i : Instr} {is : List Instr}
  {k : Nat} {s t : State}

@[simp] theorem setRing_setRing : (s.setRing k r).setRing k p = s.setRing k p := by
  simp [State.setRing, List.modify_modify_eq, Function.comp_def]

theorem hasRing_setRing (hr : HasRing s k c r) (hp : RingWf c p) : HasRing (s.setRing k p) k c p := by
  obtain ⟨hu, ha, -⟩ := hr
  exact ⟨setRing_get_self s hu p, ha, hp⟩

/-- A ring operation that goes on has an operand that fits. -/
theorem ringOp_fits (h : ringOp o c r = .next (r', v)) : o.fits c = true := by
  cases o with
  | push x => exact decide_eq_true (ringPush_eq_next.1 h).1
  | init | pop | status => rfl

/-- Sound rings of the same content answer a ring operation alike and keep the same content: both do
what the bounded queue does (40_ring_buffer.md R85). -/
theorem ringOp_sameContent (hr : RingWf c r) (hp : RingWf c p) (hq : p.content c = r.content c)
    (h : ringOp o c r = .next (r', v)) :
    ∃ p', ringOp o c p = .next (p', v) ∧ p'.content c = r'.content c := by
  have ⟨_, hhead, _⟩ := hr
  have hc : 0 < c.cap := Nat.zero_lt_of_lt hhead
  obtain ⟨p', w, hop⟩ := ringOp_goes_on hp (ringOp_fits h)
  have hstep := ringOp_queueStep hc hp hop
  rw [hq, ringOp_queueStep hc hr h, Prod.mk.injEq] at hstep
  obtain ⟨hcontent, rfl⟩ := hstep
  exact ⟨p', hop, hcontent.symm⟩

/-- What a completed command does where ring buffer `k` is sound: its ring operation on that ring, or
something that neither sees nor changes the ring and is not answered on its consumer's port. -/
theorem exec_at_ring_cases (hr : HasRing s k c r) (h : exec i s = .next t) :
    (∃ o r' v, i = RingOp.on k o ∧ ringOp o c r = .next (r', v) ∧
      t = (s.setRing k r').respond (o.port k) v) ∨
    (i.port ≠ .cons k ∧ HasRing t k c r ∧ ∀ p, exec i (s.setRing k p) = .next (t.setRing k p)) := by
  rcases exec_next_cases h with ⟨j, o, u, r₁, v, rfl, hu, ha, hop, rfl⟩ | ⟨hp, rfl⟩
  · by_cases hj : j = k
    · subst hj
      obtain ⟨r', v', hop', ht⟩ := exec_on_of_hasRing hr h
      exact .inl ⟨o, r', v', rfl, hop', ht⟩
    · obtain ⟨hk, hcw⟩ := hr
      refine .inr ⟨?_, ⟨(setRing_get_ne s (Ne.symm hj) r₁).trans hk, hcw⟩, fun p => ?_⟩
      · rw [port_on]
        cases o <;> simp [RingOp.port, hj]
      · have hu' := (setRing_get_ne s hj p).trans hu
        refine exec_on_eq_next.2 ⟨u, r₁, v, hu', ha, hop, ?_⟩
        exact congrArg (State.respond · (o.port j) v) (setRing_comm hj)
  · exact .inr ⟨by simp [hp], hr, fun p => exec_crc hp _⟩

/-- Where a ring is replaced by one of the same content, a completed command completes too, and again
leaves a ring of the same content in the place of the other. -/
theorem exec_sameContent (hr : HasRing s k c r) (hp : RingWf c p) (hq : p.content c = r.content c)
    (h : exec i s = .next t) :
    ∃ r' p', exec i (s.setRing k p) = .next (t.setRing k p') ∧ HasRing t k c r' ∧ RingWf c p' ∧
      p'.content c = r'.content c := by
  rcases exec_at_ring_cases hr h with ⟨o, r', v, rfl, hop, rfl⟩ | ⟨-, ht, hexec⟩
  · obtain ⟨p', hop', hcontent⟩ := ringOp_sameContent (hasRing_wf hr) hp hq hop
    obtain ⟨hexec, hp'⟩ := hasRing_exec (hasRing_setRing hr hp) hop'
    refine ⟨r', p', hexec.trans ?_, (hasRing_exec hr hop).2, hasRing_wf hp', hcontent⟩
    rw [setRing_setRing]
    exact congrArg (fun u => Host.Outcome.next (State.respond u (o.port k) v)) setRing_setRing.symm
  · exact ⟨r, p, hexec p, ht, hp, hq⟩

theorem execAll_sameContent (hr : HasRing s k c r) (hp : RingWf c p)
    (hq : p.content c = r.content c) (h : execAll is s = .next t) :
    ∃ p', execAll is (s.setRing k p) = .next (t.setRing k p') := by
  induction is generalizing s r p with
  | nil =>
    obtain rfl : s = t := Host.Outcome.next.inj h
    exact ⟨p, rfl⟩
  | cons i is ih =>
    obtain ⟨u, hu, h⟩ := execAll_cons_eq_next.1 h
    obtain ⟨r₁, p₁, hexec, hr₁, hp₁, hq₁⟩ := exec_sameContent hr hp hq hu
    obtain ⟨p', hrest⟩ := ih hr₁ hp₁ hq₁ h
    exact ⟨p', execAll_cons_eq_next.2 ⟨_, hexec, hrest⟩⟩

theorem shown_eq_some {out : Host.Outcome State Fault Refusal} {l : List PortResponse} :
    shown out = some l ↔ ∃ t, out = .next t ∧ t.responses = l := by
  cases out <;> simp [shown, nextOf]

/-- A run shows the same where a ring is replaced by one of the same content: each of the two runs
follows the other. -/
theorem shown_sameContent (hr : HasRing s k c r) (hp : RingWf c p)
    (hq : p.content c = r.content c) : shown (execAll is (s.setRing k p)) = shown (execAll is s) := by
  refine Option.ext fun l => ?_
  rw [shown_eq_some, shown_eq_some]
  constructor
  · rintro ⟨t, ht, rfl⟩
    obtain ⟨r', hback⟩ := execAll_sameContent (hasRing_setRing hr hp) (hasRing_wf hr) hq.symm ht
    rw [setRing_setRing, hasRing_setRing_self hr] at hback
    exact ⟨_, hback, rfl⟩
  · rintro ⟨t, ht, rfl⟩
    obtain ⟨p', hforth⟩ := execAll_sameContent hr hp hq ht
    exact ⟨_, hforth, rfl⟩

/-- All empty buffers show the same. -/
theorem shown_of_isEmpty (hr : HasRing s k c r) (he : r.isEmpty = true) (hp : RingWf c p)
    (hpe : p.isEmpty = true) : shown (execAll is (s.setRing k p)) = shown (execAll is s) := by
  have hc := hasRing_cap hr
  refine shown_sameContent hr hp ?_
  rw [(content_eq_nil hc hp).2 hpe, (content_eq_nil hc (hasRing_wf hr)).2 he]

/-- The content is what the registers and the occupied slots make it (10_state.md R28). -/
theorem content_of_occupied (hreg : SameRegisters r p)
    (hslots : ∀ j, r.occupied c j → p.buf[j]? = r.buf[j]?) : p.content c = r.content c := by
  obtain ⟨hhead, htail, hfull⟩ := hreg
  have hcount : p.count c = r.count c := by simp [RingBuf.count, hhead, htail, hfull]
  rw [RingBuf.content, RingBuf.content, hcount, htail]
  refine List.map_congr_left fun j hj => ?_
  rw [List.getD_eq_getElem?_getD, List.getD_eq_getElem?_getD,
    hslots _ ⟨j, List.mem_range.1 hj, rfl⟩]

/-- An empty buffer has no occupied slot. -/
theorem not_occupied_of_count_eq_zero (h : r.count c = 0) (j : Nat) : ¬r.occupied c j := by
  rintro ⟨n, hn, -⟩
  omega

end Content

/-! ### A stale count still bounds the pops -/

section Stale

variable {c : RingConfig} {r : RingBuf} {o : RingOp} {i : Instr} {is : List Instr} {k n : Nat}
  {s t : State} {q : List Item}

theorem popsOn_cons (i : Instr) (is : List Instr) :
    popsOn k (i :: is) = popsOn k is + popsOn k [i] := by
  simp [popsOn, List.countP_cons]

/-- On a queue with an item for the command, if it is a pop, and `n` more, the command leaves `n` and is
not answered NONE on the consumer's port. -/
theorem queueStep_stock (ho : o ≠ .init) (hn : n + popsOn k [o.on k] ≤ q.length) :
    n ≤ (queueStep c o q).1.length ∧
      ({ port := o.port k, rsp := (queueStep c o q).2 } : PortResponse) ≠
        { port := .cons k, rsp := .noItem } := by
  cases o with
  | init => exact absurd rfl ho
  | push x =>
    have hn' : n ≤ q.length := Nat.le_of_add_right_le hn
    by_cases hfull : q.length = c.cap <;> simp [queueStep, RingOp.port, hfull] <;> omega
  | pop =>
    cases q with
    | nil => simp [popsOn, RingOp.on] at hn
    | cons x q => simpa [popsOn, RingOp.on, queueStep] using hn
  | status => exact ⟨Nat.le_of_add_right_le hn, by simp [queueStep]⟩

/-- A command of any unit, but `RB.INIT` of ring buffer `k`, leaves `n` items in that buffer if it had `n`
and one for the command, where it is a pop of it, and is not answered NONE on the consumer's port. -/
theorem exec_keeps_stock (hr : HasRing s k c r) (hi : i ≠ .rbInit k)
    (hn : n + popsOn k [i] ≤ r.count c) (h : exec i s = .next t) :
    ∃ r' a, HasRing t k c r' ∧ n ≤ r'.count c ∧ t.responses = s.responses ++ [a] ∧
      a ≠ { port := .cons k, rsp := .noItem } := by
  rcases exec_at_ring_cases hr h with ⟨o, r', v, rfl, hop, rfl⟩ | ⟨hport, ht, -⟩
  · have ho : o ≠ .init := fun ho => hi (congrArg (RingOp.on k) ho)
    obtain ⟨hcount, hrsp⟩ := queueStep_stock (c := c) ho (length_content ▸ hn)
    rw [ringOp_queueStep (hasRing_cap hr) (hasRing_wf hr) hop] at hcount hrsp
    exact ⟨r', _, (hasRing_exec hr hop).2, length_content ▸ hcount, rfl, hrsp⟩
  · obtain ⟨v, hrsp⟩ := exec_responds h
    exact ⟨r, _, ht, Nat.le_of_add_right_le hn, hrsp, fun ha => hport (congrArg PortResponse.port ha)⟩

/-- A run without `RB.INIT` and with no more pops than the count answers no pop NONE, whatever the other
agents do (70_reset_and_hazards.md R147). -/
theorem execAll_keeps_stock (hr : HasRing s k c r) (hinit : Instr.rbInit k ∉ is)
    (hn : popsOn k is ≤ r.count c) (h : execAll is s = .next t) :
    ∃ l, t.responses = s.responses ++ l ∧
      ({ port := .cons k, rsp := .noItem } : PortResponse) ∉ l := by
  induction is generalizing s r with
  | nil =>
    obtain rfl : s = t := Host.Outcome.next.inj h
    exact ⟨[], by simp⟩
  | cons i is ih =>
    obtain ⟨hi, his⟩ := not_or.1 (mt List.mem_cons.2 hinit)
    rw [popsOn_cons] at hn
    obtain ⟨u, hu, h⟩ := execAll_cons_eq_next.1 h
    obtain ⟨r₁, a, hr₁, hn₁, hrsp, ha⟩ := exec_keeps_stock hr (Ne.symm hi) hn hu
    obtain ⟨l, hl, hmem⟩ := ih hr₁ his hn₁ h
    exact ⟨a :: l, by simp [hl, hrsp], by simp [ha.symm, hmem]⟩

/-- Pushes of an item that fits fill a sound buffer: one for each free place. -/
theorem pushes_fill {x : Item} (hr : HasRing s k c r) (hx : x < 2 ^ c.elemBits) :
    ∃ (xs : List Item) (t : State) (r' : RingBuf), execAll (xs.map (Instr.rbPush k)) s = .next t ∧
      HasRing t k c r' ∧ r'.full = true := by
  have hcount : (r.content c).length ≤ c.cap := length_content ▸ count_le (hasRing_wf hr)
  obtain ⟨xs, hlen, hxs⟩ : ∃ xs, (r.content c).length + xs.length = c.cap ∧ ∀ y ∈ xs, y = x :=
    ⟨List.replicate (c.cap - (r.content c).length) x, by rw [List.length_replicate]; omega,
      fun y hy => List.eq_of_mem_replicate hy⟩
  have hos : ∀ o ∈ xs.map RingOp.push, o.fits c = true :=
    List.forall_mem_map.2 fun y hy => decide_eq_true (hxs y hy ▸ hx)
  obtain ⟨t, r', ht, hr', hcontent, -⟩ := execAll_refines_queue hr hos
  rw [queueRun_pushes hlen.le] at hcontent
  rw [List.map_map] at ht
  exact ⟨xs, t, r', ht, hr', (length_content_eq_cap (hasRing_wf hr')).1 (by simp [hcontent, hlen])⟩

/-- A push is answered NONE exactly when the buffer was full. -/
theorem exec_rbPush_none_iff {x : Item} (hr : HasRing s k c r) (h : exec (.rbPush k x) s = .next t) :
    newResponses s t = [{ port := .prod k, rsp := .noItem }] ↔ r.full = true := by
  obtain ⟨r', v, hop, rfl⟩ := exec_on_of_hasRing (o := .push x) hr h
  rw [newResponses_respond (setRing_responses s k r')]
  obtain ⟨-, ⟨hf, -, rfl⟩ | ⟨hf, -, -, rfl⟩⟩ := ringPush_eq_next.1 hop <;> simp [RingOp.port, hf]

end Stale

/-! ### Infinite runs -/

section Infinite

variable {c : RingConfig} {r : RingBuf} {k : Nat} {s : State} {rs : Nat → Request}
  {ss ss' : Nat → State} {now : List Request}

/-- A sequence of states is determined by its first, where each one follows from the one before. -/
theorem states_unique {f : Nat → State → Host.Outcome State Fault Refusal} (h0 : ss' 0 = ss 0)
    (h : ∀ n, f n (ss n) = .next (ss (n + 1))) (h' : ∀ n, f n (ss' n) = .next (ss' (n + 1))) :
    ss' = ss := by
  funext n
  induction n with
  | zero => exact h0
  | succ n ih => exact Host.Outcome.next.inj ((h' n).symm.trans (ih ▸ h n))

theorem infiniteRun_unique (h : InfiniteRun s rs ss) (h' : InfiniteRun s rs ss') : ss' = ss :=
  states_unique (h'.start.trans h.start.symm) h.next h'.next

/-- The beginnings of an infinite run are the finite runs of the same requests. -/
theorem infiniteRun_serveAll (h : InfiniteRun s rs ss) (n : Nat) :
    serveAll ((List.range n).map rs) s = .next (ss n) := by
  induction n with
  | zero => exact congrArg Host.Outcome.next h.start.symm
  | succ n ih =>
    rw [List.range_succ, List.map_append, serveAll_append_eq_next]
    exact ⟨ss n, ih, serveAll_cons_eq_next.2 ⟨_, h.next n, rfl⟩⟩

/-- An infinite run is clean throughout exactly when it starts clean and every request decodes
(60_exceptions.md R124). -/
theorem infiniteRun_clean_iff (h : InfiniteRun s rs ss) :
    (∀ n, (ss n).clean) ↔ s.clean ∧ ∀ n, ∃ i, decode (rs n) = .ok i := by
  have hclean : ∀ n, (ss n).clean ↔ s.clean ∧ ∀ m < n, ∃ i, decode (rs m) = .ok i := fun n => by
    rw [State.clean, serveAll_faultLog (infiniteRun_serveAll h n), List.append_eq_nil_iff,
      faultsOf_eq_nil]
    simp
  simp only [hclean]
  exact ⟨fun hall => ⟨(hall 0).1, fun n => (hall (n + 1)).2 n n.lt_succ_self⟩,
    fun ⟨hs, hd⟩ n => ⟨hs, fun m _ => hd m⟩⟩

/-- A sound block runs through every infinite sequence of requests that can stand on their ports. -/
theorem infiniteRun_of_inv (h : Inv s) (hrs : ∀ n, (rs n).wellFormed s.config = true) :
    InfiniteRun s rs (statesFrom s rs) :=
  (infiniteRun_of_invariant (P := fun _ t => Inv t ∧ t.config = s.config) ⟨h, rfl⟩
    fun n t ⟨ht, hcfg⟩ => by
      obtain ⟨u, hu⟩ := serve_completes ht (hcfg ▸ hrs n)
      exact ⟨u, hu, serve_inv ht hu, (serve_frame hu).1.trans hcfg⟩).1

/-- More arrivals that can stand on their ports keep a sound state sound. -/
theorem arriveNow_inv (h : Inv s) (hnow : ∀ q ∈ now, q.wellFormed s.config = true) :
    Inv (s.arriveNow now) := by
  obtain ⟨hc, hu, ho, hn⟩ := h
  refine ⟨by simpa using hc, by simpa using hu, fun q hq => ?_, by simpa using hn⟩
  rw [arriveNow_config]
  exact ((mem_arriveNow_outstanding s now).1 hq).elim (ho q) (hnow q)

/-- With more arrivals at every step, a sound block has an infinite run at its ports,
of sound states. -/
theorem exists_infinitePortRun {now : Nat → List Request} (h : Inv s)
    (hnow : ∀ n, ∀ q ∈ now n, q.wellFormed s.config = true) :
    ∃ ss, InfinitePortRun s now ss ∧ ∀ n, Inv (ss n) := by
  have hstep : ∀ n (t : { t // Inv t ∧ t.config = s.config }),
      ∃ u : { t // Inv t ∧ t.config = s.config }, step (t.1.arriveNow (now n)) = .next u.1 := by
    rintro n ⟨t, ht, hcfg⟩
    have hin := arriveNow_inv ht (hcfg ▸ hnow n)
    obtain ⟨u, hu⟩ := step_completes hin
    exact ⟨⟨u, step_inv hin hu, by rw [step_config hu, arriveNow_config, hcfg]⟩, hu⟩
  choose next hnext using hstep
  let ss : Nat → { t // Inv t ∧ t.config = s.config } := Nat.rec ⟨s, h, rfl⟩ next
  exact ⟨fun n => (ss n).1, ⟨rfl, fun n => hnext n (ss n)⟩, fun n => (ss n).2.1⟩

/-- Polling an empty buffer for ever changes no unit and is answered NONE for ever
(93_implementation_defined.md I11). -/
theorem polling_isEmpty (hr : HasRing s k c r) (he : r.isEmpty = true) :
    ∃ ss, InfiniteRun s (fun _ => encode (.rbPop k)) ss ∧ ∀ n, SameUnits s (ss n) ∧
      (ss (n + 1)).responses = (ss n).responses ++ [{ port := .cons k, rsp := .noItem }] := by
  have hpop : ∀ t, SameUnits s t →
      serve (encode (.rbPop k)) t = .next (t.respond (.cons k) .noItem) := fun t ⟨hunits, _⟩ => by
    have ht : HasRing t k c r := ⟨hunits ▸ hr.1, hr.2⟩
    exact (serve_encode (hasPort_of_hasRing ht).1).trans (exec_rbPop_of_isEmpty ht he)
  obtain ⟨hrun, hsame⟩ := infiniteRun_of_invariant (P := fun _ t => SameUnits s t) ⟨rfl, rfl⟩
    fun _ t ht => ⟨_, hpop t ht, ht⟩
  exact ⟨_, hrun, fun n => ⟨hsame n, by rw [statesFrom_succ (hpop _ (hsame n)), respond_responses]⟩⟩

end Infinite

/-! ### Reset, and the commands that put a unit into its reset state -/

section Reset

variable {c : RingConfig} {cs : Config} {k : Nat} {s : State} {b : List Item}

@[simp] theorem resetOf_config (cs : Config) : (State.resetOf cs).config = cs := by
  simp [State.config, State.resetOf, Function.comp_def]

/-- A ring at reset is sound whatever its slots hold (log 4). -/
theorem reset_with_buf_wf (hc : 0 < c.cap) (hb : StorageWf c { RingBuf.reset c with buf := b }) :
    RingWf c { RingBuf.reset c with buf := b } :=
  ⟨hb, hc, hc, by simp [RingBuf.reset]⟩

theorem reset_isEmpty (c : RingConfig) (b : List Item) :
    RingBuf.isEmpty { RingBuf.reset c with buf := b } = true := by
  simp [RingBuf.isEmpty, RingBuf.reset]

theorem hasRing_resetOf (ha : cs.accepted = true) (hk : cs[k]? = some c) :
    HasRing (State.resetOf cs) k c (RingBuf.reset c) := by
  have hca := accepted_of_mem ha (List.mem_of_getElem? hk)
  exact ⟨by simp [State.resetOf, hk], hca, reset_wf (accepted_cap hca).1⟩

theorem resetOf_inv (ha : cs.accepted = true) : Inv (State.resetOf cs) := by
  refine ⟨by simpa using ha, fun u hu => ?_, by simp [State.outstanding, State.resetOf],
    by simp [State.resetOf]⟩
  obtain ⟨c, hc, rfl⟩ := List.mem_map.1 hu
  exact reset_wf (accepted_cap (accepted_of_mem ha hc)).1

/-- A unit after `RB.INIT` on it. -/
def emptiedUnit (u : RingUnit) : RingUnit := { u with ring := emptied u.ring }

/-- `RB.INIT` on some units of an accepted block empties each of them and leaves the other units and
the fault log. -/
theorem execAll_rbInits (ks : List Nat) (ha : s.config.accepted = true)
    (hks : ∀ k ∈ ks, k < s.units.length) :
    ∃ t, execAll (ks.map Instr.rbInit) s = .next t ∧ t.faultLog = s.faultLog ∧
      ∀ j, t.units[j]? = if j ∈ ks then s.units[j]?.map emptiedUnit else s.units[j]? := by
  induction ks generalizing s with
  | nil => exact ⟨s, rfl, rfl, by simp⟩
  | cons k ks ih =>
    obtain ⟨hk, hks⟩ := List.forall_mem_cons.1 hks
    obtain ⟨u, hu⟩ : ∃ u, s.units[k]? = some u := ⟨_, List.getElem?_eq_getElem hk⟩
    have hua := accepted_of_mem ha (List.mem_map_of_mem (List.mem_of_getElem? hu))
    have hexec := exec_rbInit (r := u.ring) hu hua
    obtain ⟨t, ht, hlog, hunits⟩ := ih (s := (s.setRing k (emptied u.ring)).respond (.cons k) .ack)
      (by simpa using ha) (by simpa using hks)
    refine ⟨t, execAll_cons_eq_next.2 ⟨_, hexec, ht⟩, hlog, fun j => ?_⟩
    rw [hunits j, respond_units]
    by_cases hj : j = k
    · subst hj
      rw [setRing_get_self s hu, hu]
      simp [emptiedUnit, emptied]
    · rw [setRing_get_ne s hj]
      simp [hj]

/-- `RB.INIT` on every ring buffer of an accepted block empties them all. -/
theorem execAll_rbInit_everywhere (ha : s.config.accepted = true) :
    ∃ t, execAll ((List.range s.units.length).map Instr.rbInit) s = .next t ∧
      t.faultLog = s.faultLog ∧ t.units = s.units.map emptiedUnit := by
  obtain ⟨t, ht, hlog, hunits⟩ := execAll_rbInits (List.range s.units.length) ha
    fun k hk => List.mem_range.1 hk
  refine ⟨t, ht, hlog, List.ext_getElem? fun j => ?_⟩
  rw [hunits j, List.getElem?_map]
  by_cases hj : j < s.units.length <;> simp [hj]

end Reset

end Sys2Proof.Machine

/-! ### The statements -/

open Sys2Proof Sys2Proof.Machine

/-- Settles O28: both buffers are empty, and a run shows of a buffer only its content. -/
theorem startIndexIsUnobservable : Obligations.StartIndexIsUnobservable := by
  unfold Obligations.StartIndexIsUnobservable
  intro s k c r j is hr hhead htail hfull hj
  have ⟨_, _, hstorage, _⟩ := hr
  exact shown_of_isEmpty hr (ringEmpty_iff.2 ⟨hhead.trans htail.symm, hfull⟩)
    ⟨hstorage, hj, hj, fun _ => rfl⟩ (ringEmpty_iff.2 ⟨rfl, hfull⟩)

/-- Settles O29: the occupied slots are the content, and after reset there are none. -/
theorem unoccupiedSlotsAreUnobservable : Obligations.UnoccupiedSlotsAreUnobservable := by
  unfold Obligations.UnoccupiedSlotsAreUnobservable
  exact ⟨fun s k c r r' is hr hw hhead htail hfull hslots =>
      shown_sameContent hr hw (content_of_occupied ⟨hhead, htail, hfull⟩ hslots),
    fun c => not_occupied_of_count_eq_zero (count_emptied (r := RingBuf.reset c))⟩

/-- Settles O30: the count bounds the pops still to be answered with an item, and pushes fill the
buffer. -/
theorem staleStatusStillBoundsThePops : Obligations.StaleStatusStillBoundsThePops := by
  unfold Obligations.StaleStatusStillBoundsThePops
  refine ⟨fun s t k c r is hr hinit hn h => ?_, fun s k c r x hr _ hx => ?_,
    fun s t k c r x hr h => exec_rbPush_none_iff hr h⟩
  · obtain ⟨l, hl, hmem⟩ := execAll_keeps_stock hr hinit hn h
    rwa [newResponses_of_append hl]
  · obtain ⟨xs, t, r', ht, hr', hf⟩ := pushes_fill hr hx
    exact ⟨xs, t, ht, exec_rbPush_of_full hr' hf hx⟩

/-- Settles O32: soundness lets every next request be served, and each state determines the next. -/
theorem runsMayBeInfinite : Obligations.RunsMayBeInfinite := by
  unfold Obligations.RunsMayBeInfinite
  refine ⟨fun s rs h hrs => ?_, fun s now h hnow => ?_, fun s k c r hr he => polling_isEmpty hr he⟩
  · have hrun := infiniteRun_of_inv h hrs
    exact ⟨_, hrun, fun ss' h' => infiniteRun_unique hrun h', infiniteRun_serveAll hrun,
      infiniteRun_clean_iff hrun⟩
  · obtain ⟨ss, hrun, hinv⟩ := exists_infinitePortRun h hnow
    exact ⟨ss, hrun, fun ss' h' => states_unique (f := fun n t => step (t.arriveNow (now n)))
      (h'.start.trans hrun.start.symm) hrun.next h'.next, hinv⟩

/-- Settles O58: field by field, and both observations from the empty buffer and the start value. -/
theorem resetState : Obligations.ResetState := by
  unfold Obligations.ResetState
  refine fun cs => ⟨resetOf_config cs, fun u hu => ?_, rfl, rfl, fun ha k c b is hk hb => ?_,
    fun ha k hk => ?_, ?_⟩
  · obtain ⟨c, -, rfl⟩ := List.mem_map.1 hu
    exact ⟨rfl, rfl, rfl⟩
  · have hr := hasRing_resetOf ha hk
    exact shown_of_isEmpty hr (reset_isEmpty c _) (reset_with_buf_wf (hasRing_cap hr) hb)
      (reset_isEmpty c b)
  · have hr := hasRing_resetOf ha (List.getElem?_eq_getElem hk)
    rw [exec_rbStatus_of_hasRing hr, statusWord_of_isEmpty (reset_isEmpty cs[k] _)]
  · rw [exec_crc rfl]
    exact congrArg (fun w => Host.Outcome.next ((State.resetOf cs).respond .crc (.crc w)))
      crcFinal_crcStart

/-- Settles O59: what `RB.INIT` leaves of a ring is its reset value with `buf` as it was, on one
unit and on every one. -/
theorem wholeBlockResetIsEveryInit : Obligations.WholeBlockResetIsEveryInit := by
  unfold Obligations.WholeBlockResetIsEveryInit
  refine ⟨fun s k c r hu ha => exec_rbInit hu ha, fun s cs => exec_crc rfl s, fun s ha => ?_⟩
  obtain ⟨t, ht, hlog, hunits⟩ := execAll_rbInit_everywhere ha
  refine ⟨_, execAll_append_eq_next.2 ⟨t, ht, execAll_cons_eq_next.2 ⟨_, exec_crc rfl t, rfl⟩⟩, rfl,
    hlog, rfl, ?_, ?_⟩ <;>
  · rw [respond_units, hunits]
    simp [State.resetOf, State.config, RingBuf.reset, emptiedUnit, emptied]

/-- Settles O47, from the soundness of every ring at reset. -/
theorem resetIsSound : Obligations.ResetIsSound := by
  unfold Obligations.ResetIsSound
  exact ⟨fun cs ha => resetOf_inv ha, resetOf_inv (by decide)⟩

end
